-- ==== Sys2Proof/Word.lean ====
section
/-! DEFINITION. The widths of the machine's values (table T1 of spec/00_scope.md, rules R6, R7, R9). -/

namespace Sys2Proof

/-- A sample of the frame, and a Payload Unit: 8 bits, unsigned (rules R6 and R7). -/
abbrev Byte := BitVec 8

/-- A shape or walk register, the `imm` field of a command and the `data` field of a response:
16 bits, unsigned (table T1, rules R9, R12, R14, R61, R63). -/
abbrev Half := BitVec 16

/-- A command word or a response word, carried whole on its port: 32 bits (rules R60 and R47). -/
abbrev Word := BitVec 32

end Sys2Proof
end

