-- ==== Sys2Proof/Syntax.lean ====
section
/-! DEFINITION. The command set: nine commands (rule R65, tables T6 and T9 of spec/30_encoding.md) and the eight
register names (table T2 of spec/10_state.md). -/

namespace Sys2Proof

/-- The eight registers of table T2, in the order of their `RDREG` index 0 to 7 (rule R11). -/
inductive Reg where
  | h | w | c | row | col | ch | data | status
  deriving DecidableEq, Repr

/-- The nine mnemonics of table T9. -/
inductive Mnemonic where
  | seth | setw | setc | rdreg | seqStart | seqGet | seqPut | embed | extract
  deriving DecidableEq, Repr

/-- A command with its operand. The operand types are exactly the ranges of rule R62, so no value of this type is out
of range. -/
inductive Instr where
  /-- `SETH n` (rule R120) -/
  | seth (n : Half)
  /-- `SETW n` (rule R121) -/
  | setw (n : Half)
  /-- `SETC n` (rule R122) -/
  | setc (n : Half)
  /-- `RDREG i` (rule R124) -/
  | rdreg (r : Reg)
  /-- `SEQ.START` (rule R80) -/
  | seqStart
  /-- `SEQ.GET` (rule R83) -/
  | seqGet
  /-- `SEQ.PUT b` (rule R84) -/
  | seqPut (b : Bool)
  /-- `EMBED v` (rule R100) -/
  | embed (v : Byte)
  /-- `EXTRACT` (rule R104) -/
  | extract
  deriving DecidableEq, Repr

/-- The mnemonic of a command. -/
def Instr.mnemonic : Instr → Mnemonic
  | .seth _ => .seth
  | .setw _ => .setw
  | .setc _ => .setc
  | .rdreg _ => .rdreg
  | .seqStart => .seqStart
  | .seqGet => .seqGet
  | .seqPut _ => .seqPut
  | .embed _ => .embed
  | .extract => .extract

end Sys2Proof
end

