-- ==== Sys2Proof/WellFormed.lean ====
section
/-! DEFINITION. Which words are commands and which operands a mnemonic admits.

A value of `Instr` cannot be ill-formed: its operand types are the ranges of rule R62. What can be ill-formed is a
command WORD and an operand written as a NUMBER, so the checks stand here: the nine (match, mask) rows of table T9
(rule R65), the three reasons of rule R67 for which a word is illegal, and the operand ranges of table T6 (rule R62).
The decoder (Sys2Proof/Decode.lean) is written from rule R66 and uses none of this file's checks. -/

namespace Sys2Proof

/-- One row of table T9. -/
structure OpcodeRow where
  mnemonic : Mnemonic
  bits : Word
  mask : Word
  deriving DecidableEq, Repr

/-- Table T9 of spec/30_encoding.md. -/
def opcodeTable : List OpcodeRow :=
  [⟨.seth, 0x01000000, 0xFFFF0000⟩,
   ⟨.setw, 0x02000000, 0xFFFF0000⟩,
   ⟨.setc, 0x03000000, 0xFFFF0000⟩,
   ⟨.rdreg, 0x08000000, 0xFFFFFFF8⟩,
   ⟨.seqStart, 0x10000000, 0xFFFFFFFF⟩,
   ⟨.seqGet, 0x11000000, 0xFFFFFFFF⟩,
   ⟨.seqPut, 0x12000000, 0xFFFFFFFE⟩,
   ⟨.embed, 0x20000000, 0xFFFFFF00⟩,
   ⟨.extract, 0x21000000, 0xFFFFFFFF⟩]

/-- "A word `cmd` is the command of a row exactly when `(cmd & mask) = match` for that row" (rule R65). -/
def OpcodeRow.accepts (r : OpcodeRow) (w : Word) : Bool := w &&& r.mask == r.bits

/-- The word is one of the nine commands (rule R65). -/
def wellFormedWord (w : Word) : Bool := opcodeTable.any fun r => r.accepts w

/-- First check of rule R67: the `rsv` field, bits 23:16, is zero. -/
def reservedZero (w : Word) : Bool := w &&& 0x00FF0000 == 0

/-- Second check of rule R67: the `op` field, bits 31:24, is one of the nine operation codes. -/
def opcodeAssigned (w : Word) : Bool :=
  opcodeTable.any fun r => w &&& 0xFF000000 == r.bits

/-- Third check of rule R67: the `imm` bits that the row of this `op` says must be zero (table T6) are zero. -/
def operandBitsZero (w : Word) : Bool :=
  opcodeTable.all fun r => w &&& 0xFF000000 != r.bits || w &&& 0x0000FFFF &&& r.mask == 0

/-- The largest operand of a mnemonic, `none` for one that takes none (table T6, rule R62). -/
def Mnemonic.operandMax : Mnemonic → Option Nat
  | .seth | .setw | .setc => some 65535
  | .rdreg => some 7
  | .seqPut => some 1
  | .embed => some 255
  | .seqStart | .seqGet | .extract => none

/-- The operand, written as a number, is one the mnemonic admits (rules R62 and R70). -/
def Mnemonic.admits (m : Mnemonic) (operand : Option Nat) : Bool :=
  match m.operandMax, operand with
  | none, none => true
  | some top, some n => decide (n ≤ top)
  | _, _ => false

end Sys2Proof
end

