-- ==== Sys2Proof/Decode.lean ====
section
/-! DEFINITION. The decoder (rule R66), total on any word, and after it the encoder (tables T5, T6 and T9 of
spec/30_encoding.md). Decoding reads no register and no memory. -/

namespace Sys2Proof

/-- Why a word is no command: the three kinds of illegal word that rule R67 lists. The machine answers all three the
same way. -/
inductive Illegal where
  /-- a bit of `rsv`, bits 23:16, is one -/
  | reservedNotZero
  /-- `op`, bits 31:24, is none of the nine operation codes -/
  | opcodeUnassigned
  /-- a bit of `imm` that must be zero for this `op` is one -/
  | operandBitsNotZero
  deriving DecidableEq, Repr

/-- What a word decodes to: one of the nine commands, or illegal (rule R66). -/
inductive Decoded where
  | command (i : Instr)
  | illegal (why : Illegal)
  deriving DecidableEq, Repr

/-- The command, if there is one. -/
def Decoded.command? : Decoded → Option Instr
  | .command i => some i
  | .illegal _ => none

/-- `op`, `rsv` and `imm` of table T5 (rule R61). -/
def opField (w : Word) : BitVec 8 := w.extractLsb' 24 8

@[inherit_doc opField] def rsvField (w : Word) : BitVec 8 := w.extractLsb' 16 8

@[inherit_doc opField] def immField (w : Word) : Half := w.extractLsb' 0 16

/-- The register with `RDREG` index `i` (rules R11 and R124). -/
def Reg.ofIndex (i : BitVec 3) : Reg :=
  if i = 0 then .h
  else if i = 1 then .w
  else if i = 2 then .c
  else if i = 3 then .row
  else if i = 4 then .col
  else if i = 5 then .ch
  else if i = 6 then .data
  else .status

/-- Rule R66, line for line: `rsv` first, then `op` with the `imm` bits that must be zero. -/
def decode (cmd : Word) : Decoded :=
  let op := opField cmd
  let imm := immField cmd
  if rsvField cmd ≠ 0 then .illegal .reservedNotZero
  else if op = 0x01 then .command (.seth imm)
  else if op = 0x02 then .command (.setw imm)
  else if op = 0x03 then .command (.setc imm)
  else if op = 0x08 ∧ imm.extractLsb' 3 13 = 0 then .command (.rdreg (Reg.ofIndex (imm.extractLsb' 0 3)))
  else if op = 0x10 ∧ imm = 0 then .command .seqStart
  else if op = 0x11 ∧ imm = 0 then .command .seqGet
  else if op = 0x12 ∧ imm.extractLsb' 1 15 = 0 then .command (.seqPut (imm.getLsbD 0))
  else if op = 0x20 ∧ imm.extractLsb' 8 8 = 0 then .command (.embed (imm.extractLsb' 0 8))
  else if op = 0x21 ∧ imm = 0 then .command .extract
  else if op = 0x08 ∨ op = 0x10 ∨ op = 0x11 ∨ op = 0x12 ∨ op = 0x20 ∨ op = 0x21 then
    .illegal .operandBitsNotZero
  else .illegal .opcodeUnassigned

/-- The command that the decoder reads from an instruction whose bits are `w`, as the opcode table numbers them. A
command word is an abstract 32-bit value (rules R47 and R60, assumption log 11), so its layout is the value itself; the bits from
`nbits` on are zero. -/
def decodeTableWord (nbits w : Nat) : Option Instr :=
  (decode (BitVec.ofNat 32 (w % 2 ^ nbits))).command?

/-- The `RDREG` index of a register (table T2). -/
def Reg.index : Reg → BitVec 3
  | .h => 0
  | .w => 1
  | .c => 2
  | .row => 3
  | .col => 4
  | .ch => 5
  | .data => 6
  | .status => 7

/-- A command word from its `op` and `imm` fields, `rsv` zero (table T5). -/
def commandWord (op : BitVec 8) (imm : Half) : Word := op ++ 0#8 ++ imm

/-- The word of a command (tables T6 and T9). -/
def encode : Instr → Word
  | .seth n => commandWord 0x01 n
  | .setw n => commandWord 0x02 n
  | .setc n => commandWord 0x03 n
  | .rdreg r => commandWord 0x08 (r.index.setWidth 16)
  | .seqStart => commandWord 0x10 0
  | .seqGet => commandWord 0x11 0
  | .seqPut b => commandWord 0x12 ((BitVec.ofBool b).setWidth 16)
  | .embed v => commandWord 0x20 (v.setWidth 16)
  | .extract => commandWord 0x21 0

end Sys2Proof
end

