-- ==== Sys2Proof/Config.lean ====
section
/-! DEFINITION. What no rule of the spec fixes: the one free value of this machine. -/

namespace Sys2Proof

/-- FREE VALUE (DESIGN CHOICE, safe; assumption log 3). The sample that an address of frame memory holds while
nobody has placed one there: "frame memory: contents unspecified until the host loads a frame" (table T3,
rules R30 and R172). It is constant for one `load` (the number of frames the host has placed) and one `address`,
because rule R42 lets a read be repeated with the same result. It has no body, so nothing can be proved of it. -/
opaque Config.unspecifiedSample (load address : Nat) : Byte

end Sys2Proof
end

