-- ==== Sys2Proof/Machine/State.lean ====
section
/-! DEFINITION. The state of the block (spec/10_state.md, spec/20_memory.md), its reset value (rule R30), and the data
that cross its ports. The registers and the frame memory are the spec's; `pending`, `trace` and `Memory.loads` are the
MODEL's own (assumption log 1, 2 and 3). -/

namespace Sys2Proof.Machine

/-- The frame memory `FM` (rule R40): the samples somebody has placed, as (address, sample) pairs with addresses strictly
rising. An address that is not listed holds no known sample; a read of it gives `Config.unspecifiedSample loads`
(assumption log 3). -/
structure Memory where
  cells : List Host.Cell
  /-- how many frames the host has placed: the argument of the free value (the model's own) -/
  loads : Nat
  deriving DecidableEq, Repr

/-- What the host can do to the block, one action at a time and only between commands (rules R10, R52, R60, R170;
DEDUCED, assumption log 5). -/
inductive HostAction where
  /-- send a command word on the command port (rule R60) -/
  | command (w : Word)
  /-- pulse the reset input (rule R170) -/
  | reset
  /-- read one sample of frame memory (rule R52) -/
  | readSample (address : Nat)
  /-- write one sample of frame memory (rule R52) -/
  | writeSample (address : Nat) (v : Byte)
  /-- replace the whole contents of frame memory by another frame, its samples at addresses 0, 1, … (rules R52, R57) -/
  | loadFrame (samples : List Byte)
  deriving DecidableEq, Repr

/-- What can be seen at the block's ports and at its frame memory, in the order it happens (rules R50, R53, R113). -/
inductive Event where
  /-- the block took this word from the command port -/
  | command (w : Word)
  /-- the block read this sample at this address -/
  | read (address : Nat) (v : Byte)
  /-- the block wrote this sample at this address -/
  | write (address : Nat) (v : Byte)
  /-- the block sent this word on the response port -/
  | respond (w : Word)
  /-- reset was applied -/
  | reset
  /-- the host read this sample at this address -/
  | hostRead (address : Nat) (v : Byte)
  /-- the host wrote this sample at this address -/
  | hostWrite (address : Nat) (v : Byte)
  /-- the host placed these samples as the new contents of frame memory -/
  | hostLoad (samples : List Byte)
  deriving DecidableEq, Repr

/-- The four status codes the block produces (table T8, rule R64). -/
inductive StatusCode where
  | ok | eos | ifb | ill
  deriving DecidableEq, Repr

/-- The two exceptions of the block (rules R150, R152, R153). -/
inductive BlockException where
  /-- a frame with fewer than 8 samples; the count is the `info` that rule R156 does not record -/
  | insufficientFrameBits (count : Nat)
  /-- a word that is no command -/
  | illegalCommand
  deriving DecidableEq, Repr

/-- The machine stops with a fault: never. Both exceptions of the block are reported in the response and latched, and
neither stops it (rules R153, R156, R158), so this type has no constructor (assumption log 7). -/
inductive Fault where
  deriving DecidableEq, Repr

/-- Why the model gives no meaning. -/
inductive Refusal where
  /-- An instruction that has no meaning yet, rejected by name in `exec`; no arm of this model answers it. Safe: the
  machine stops where the hardware would go on. -/
  | notModelled (mnemonic : String)
  deriving DecidableEq, Repr

/-- The block (table T2), its frame memory (rule R40), and the two ports seen from the model. -/
structure State where
  /-- `H`: number of rows (rule R12) -/
  h : Half
  /-- `W`: number of columns (rule R12) -/
  w : Half
  /-- `C`: number of channels (rule R12) -/
  c : Half
  /-- `ROW`: the walk's row (rule R14) -/
  row : Half
  /-- `COL`: the walk's column (rule R14) -/
  col : Half
  /-- `CH`: the walk's channel (rule R14) -/
  ch : Half
  /-- `DATA`: the last Payload Unit embedded or extracted (rule R19) -/
  data : Byte
  /-- `STATUS` bit 1, `E_IFB` (rule R21) -/
  eIfb : Bool
  /-- `STATUS` bit 2, `E_ILL` (rule R21) -/
  eIll : Bool
  /-- the frame memory `FM` (rule R40) -/
  mem : Memory
  /-- the MODEL's own: what the host will do next, first action first (assumption log 1) -/
  pending : List HostAction
  /-- the MODEL's own: what has been seen at the ports and at the frame memory, oldest first (assumption log 2) -/
  trace : List Event
  deriving DecidableEq, Repr

/-- The machine right after reset: every register zero (table T3, rule R30). `STATUS` reads 0x0001, because its bit 0
is computed (Sys2Proof/Machine/Flags.lean). Nothing is listed in frame memory: its contents are unspecified (rules R30
and R172). No command has been sent (rule R171). -/
def State.reset : State where
  h := 0
  w := 0
  c := 0
  row := 0
  col := 0
  ch := 0
  data := 0
  eIfb := false
  eIll := false
  mem := ⟨[], 0⟩
  pending := []
  trace := []

/-! The named updates of one piece of state each. -/

def State.setH (s : State) (n : Half) : State := { s with h := n }
def State.setW (s : State) (n : Half) : State := { s with w := n }
def State.setC (s : State) (n : Half) : State := { s with c := n }
def State.setWalk (s : State) (row col ch : Half) : State := { s with row := row, col := col, ch := ch }
def State.setData (s : State) (v : Byte) : State := { s with data := v }
def State.setEIfb (s : State) : State := { s with eIfb := true }
def State.setEIll (s : State) : State := { s with eIll := true }
def State.setMem (s : State) (m : Memory) : State := { s with mem := m }
def State.setPending (s : State) (p : List HostAction) : State := { s with pending := p }
/-- Add one event at the end of the trace. -/
def State.emit (s : State) (e : Event) : State := { s with trace := s.trace ++ [e] }

end Sys2Proof.Machine
end

