-- ==== Sys2Proof/Machine/Flags.lean ====
section
/-! DEFINITION. What is computed from the registers: `N()`, `POS()`, `exhausted()` and the `STATUS` word. The block has
no condition codes (rule R22). -/

namespace Sys2Proof.Machine

/-- `N() = H * W * C`, the exact natural number (rule R13). -/
def State.sampleCount (s : State) : Nat := s.h.toNat * s.w.toNat * s.c.toNat

/-- `POS() = (ROW * W + COL) * C + CH`, the exact natural number (rule R17). -/
def State.pos (s : State) : Nat := (s.row.toNat * s.w.toNat + s.col.toNat) * s.c.toNat + s.ch.toNat

/-- `exhausted()`: `POS() >= N()` (rule R18). -/
def State.exhausted (s : State) : Bool := decide (s.sampleCount ≤ s.pos)

/-- `STATUS` as a read builds it: bits 15:3 zero, then `E_ILL`, `E_IFB`, and `EXH` computed at the moment of the read
(table T13, rules R21 and R124). -/
def State.statusWord (s : State) : Half :=
  0#13 ++ BitVec.ofBool s.eIll ++ BitVec.ofBool s.eIfb ++ BitVec.ofBool s.exhausted

end Sys2Proof.Machine
end

