-- ==== Sys2Proof/Machine/Operands.lean ====
section
/-! DEFINITION. How operands are read and how results are formed: the register that `RDREG` names, the bit of a sample
and of a Payload Unit, the response word. All arithmetic is unsigned and exact (rule R112). -/

namespace Sys2Proof.Machine

/-- `x[i]`, extended with zeros to 16 bits (rules R11, R19, R124). -/
def readReg (s : State) : Reg → Half
  | .h => s.h
  | .w => s.w
  | .c => s.c
  | .row => s.row
  | .col => s.col
  | .ch => s.ch
  | .data => s.data.setWidth 16
  | .status => s.statusWord

/-- `lsb(s)`: bit 0 of a sample, the bit that carries payload (rule R48). -/
def lsb (sample : Byte) : Bool := sample.getLsbD 0

/-- `setlsb(s, b) = (s & 0xFE) | b` (rules R100 and R112). -/
def setLsb (sample : Byte) (b : Bool) : Byte := (sample &&& 0xFE) ||| (BitVec.ofBool b).setWidth 8

/-- `v[7 - i]`: the bit of a Payload Unit that Bit Position `i` carries, most significant first (rule R48). -/
def unitBit (v : Byte) (i : Nat) : Bool := v.getLsbD (7 - i)

/-- `((acc << 1) | b) & 0xFF`: one step of assembling a Payload Unit (rules R104 and R112). -/
def shiftIn (acc : Byte) (b : Bool) : Byte := ((acc <<< 1) ||| (BitVec.ofBool b).setWidth 8) &&& 0xFF

/-- The 8 Bit Positions of a Payload Unit, in the order they are handled (rules R7, R50, R113). -/
def unitPositions : List Nat := [0, 1, 2, 3, 4, 5, 6, 7]

/-- The number of a status code (table T8, rule R64). -/
def StatusCode.code : StatusCode → BitVec 4
  | .ok => 0
  | .eos => 1
  | .ifb => 2
  | .ill => 3

/-- The response word: status in bits 31:28, zero in 27:16, data in 15:0 (table T7, rule R63). -/
def responseWord (status : StatusCode) (data : Half) : Word := status.code ++ 0#12 ++ data

/-- `zext_16` of one bit. -/
def bitData (b : Bool) : Half := (BitVec.ofBool b).setWidth 16

end Sys2Proof.Machine
end

