-- ==== Sys2Proof/Machine/Ops.lean ====
section
/-! DEFINITION. The operations every command is made of: frame memory (rules R42, R43), the walk (rule R82), the response
(rule R63), raising an exception (rule R156), the host's actions between commands (rule R52) and reset (rule R170). -/

namespace Sys2Proof.Machine

/-! ### Frame memory -/

/-- The listed sample at an address. -/
def findCell : List Host.Cell → Nat → Option Byte
  | [], _ => none
  | (b, v) :: rest, a => if a = b then some v else findCell rest a

/-- The list with `v` at address `a`, in address order. -/
def putCell (a : Nat) (v : Byte) : List Host.Cell → List Host.Cell
  | [] => [(a, v)]
  | (b, x) :: rest =>
    if a < b then (a, v) :: (b, x) :: rest
    else if a = b then (a, v) :: rest
    else (b, x) :: putCell a v rest

/-- Samples at consecutive addresses from `a` on, in the layout of rule R41. -/
def cellsFrom (a : Nat) : List Byte → List Host.Cell
  | [] => []
  | v :: rest => (a, v) :: cellsFrom (a + 1) rest

/-- Addresses strictly rising. -/
def risingCells : List Host.Cell → Bool
  | [] => true
  | [_] => true
  | (a, _) :: (b, y) :: rest => decide (a < b) && risingCells ((b, y) :: rest)

/-- The canonical form: addresses strictly rising. An unlisted address holds no known sample, which no listed entry can
equal, so this is the whole of it (assumption log 3). -/
def Memory.wf (m : Memory) : Bool := risingCells m.cells

/-- `MemRead(a, 1)` as a value (rule R42), total on all addresses (assumption log 4). An address nobody has placed a sample
at gives the free value (assumption log 3). -/
def Memory.read (m : Memory) (a : Nat) : Byte :=
  (findCell m.cells a).getD (Config.unspecifiedSample m.loads a)

/-- `MemWrite(a, 1, v)` (rule R43). -/
def Memory.write (m : Memory) (a : Nat) (v : Byte) : Memory := { m with cells := putCell a v m.cells }

/-- The whole contents replaced by another frame (rules R52 and R57). -/
def Memory.load (m : Memory) (samples : List Byte) : Memory := ⟨cellsFrom 0 samples, m.loads + 1⟩

/-- The block reads one sample (rule R42). -/
def memRead (a : Nat) (s : State) : Byte × State := (s.mem.read a, s.emit (.read a (s.mem.read a)))

/-- The block writes one sample (rule R43). -/
def memWrite (a : Nat) (v : Byte) (s : State) : State := (s.setMem (s.mem.write a v)).emit (.write a v)

/-! ### The response and the exceptions -/

/-- `respond(status, data)`: the one response of a command (rule R63). -/
def respond (status : StatusCode) (data : Half) (s : State) : State :=
  s.emit (.respond (responseWord status data))

/-- `raise E(info)`: TAKING AN EXCEPTION, exactly as rule R156 has it. The sticky bit is set and the response sent;
nothing is saved, no mode changes, and there is nothing to return from (rule R158). `info` is not recorded. -/
def raiseException (e : BlockException) (s : State) : State :=
  match e with
  | .insufficientFrameBits _ => respond .ifb 0 s.setEIfb
  | .illegalCommand => respond .ill 0 s.setEIll

/-! ### The walk -/

/-- `ROW <- 0; COL <- 0; CH <- 0` (rules R80, R100, R104, R120). -/
def restartWalk (s : State) : State := s.setWalk 0 0 0

/-- `advance()` (rule R82): the channel moves fastest, then the column, then the row. DEDUCED: the counters add modulo 2^16,
which rule R15 says never shows (assumption log 8). -/
def advance (s : State) : State :=
  let ch := s.ch + 1
  if ch = s.c then
    let col := s.col + 1
    if col = s.w then s.setWalk (s.row + 1) 0 0
    else s.setWalk s.row col 0
  else s.setWalk s.row s.col ch

/-- Yield the bit at the walk's position and move on: the steps that `SEQ.GET` (rule R83) and `EXTRACT` (rule R104)
share. -/
def getBit (s : State) : Bool × State :=
  let (sample, t) := memRead s.pos s
  (lsb sample, advance t)

/-- Yield the bit at the walk's position, overwrite it with `b` and move on: the steps that `SEQ.PUT` (rule R84) and
`EMBED` (rule R100) share. The read comes first, and the write is made whatever the bit was (rules R50 and R51). -/
def putBit (b : Bool) (s : State) : Bool × State :=
  let a := s.pos
  let (sample, t) := memRead a s
  (lsb sample, advance (memWrite a (setLsb sample b) t))

/-- The loop of `EMBED` over the 8 Bit Positions (rule R100). -/
def putUnit (v : Byte) (s : State) : State :=
  unitPositions.foldl (fun t i => (putBit (unitBit v i) t).2) s

/-- The loop of `EXTRACT` over the 8 Bit Positions (rule R104). -/
def getUnit (s : State) : Byte × State :=
  unitPositions.foldl (fun p _ => let (b, t) := getBit p.2; (shiftIn p.1 b, t)) (0, s)

/-! ### What the host does between commands -/

/-- The block takes a command word from the command port (rules R10 and R60); `rest` is what the host does after it. -/
def takeCommand (w : Word) (rest : List HostAction) (s : State) : State :=
  (s.setPending rest).emit (.command w)

/-- Reset (rule R170): every register at its reset value, frame memory not touched, no response sent. -/
def applyReset (s : State) : State :=
  { State.reset with mem := s.mem, pending := s.pending, trace := s.trace ++ [.reset] }

/-- The host reads a sample: nothing changes (rules R42 and R52). -/
def hostRead (a : Nat) (s : State) : State := s.emit (.hostRead a (s.mem.read a))

/-- The host writes a sample (rule R52). -/
def hostWrite (a : Nat) (v : Byte) (s : State) : State := (s.setMem (s.mem.write a v)).emit (.hostWrite a v)

/-- The host replaces the whole contents of frame memory; the registers, the walk among them, stay (rules R52, R178). -/
def hostLoad (samples : List Byte) (s : State) : State :=
  (s.setMem (s.mem.load samples)).emit (.hostLoad samples)

end Sys2Proof.Machine
end

