-- ==== Sys2Proof/Machine/BitSequencer.lean ====
section
/-! DEFINITION. The Bit-Sequencer commands (spec/40_bit_sequencer.md). -/

namespace Sys2Proof.Machine

/-- `SEQ.START` (rule R80). -/
def execSeqStart (s : State) : Host.Outcome State Fault Refusal :=
  .next (respond .ok 0 (restartWalk s))

/-- `SEQ.GET` (rule R83); at the end of the sequence it answers `EOS` and does nothing else (rule R86). -/
def execSeqGet (s : State) : Host.Outcome State Fault Refusal :=
  if s.exhausted then .next (respond .eos 0 s)
  else
    let (b, t) := getBit s
    .next (respond .ok (bitData b) t)

/-- `SEQ.PUT b` (rule R84); the response carries the old bit; at the end as `SEQ.GET` (rule R86). -/
def execSeqPut (b : Bool) (s : State) : Host.Outcome State Fault Refusal :=
  if s.exhausted then .next (respond .eos 0 s)
  else
    let (old, t) := putBit b s
    .next (respond .ok (bitData old) t)

end Sys2Proof.Machine
end

