-- ==== Sys2Proof/Machine/Configuration.lean ====
section
/-! DEFINITION. The configuration and register access commands (spec/42_config_and_regaccess.md). -/

namespace Sys2Proof.Machine

/-- `SETH n` (rule R120). -/
def execSeth (n : Half) (s : State) : Host.Outcome State Fault Refusal :=
  .next (respond .ok 0 (restartWalk (s.setH n)))

/-- `SETW n` (rule R121). -/
def execSetw (n : Half) (s : State) : Host.Outcome State Fault Refusal :=
  .next (respond .ok 0 (restartWalk (s.setW n)))

/-- `SETC n` (rule R122). -/
def execSetc (n : Half) (s : State) : Host.Outcome State Fault Refusal :=
  .next (respond .ok 0 (restartWalk (s.setC n)))

/-- `RDREG i` (rule R124): reading changes nothing. -/
def execRdreg (r : Reg) (s : State) : Host.Outcome State Fault Refusal :=
  .next (respond .ok (readReg s r) s)

end Sys2Proof.Machine
end

