-- ==== Sys2Proof/Machine/FrameCodec.lean ====
section
/-! DEFINITION. The Frame Codec commands (spec/41_frame_codec.md). Each begins a fresh walk, then tests the size of the
frame, then touches memory (rules R155 and R157). -/

namespace Sys2Proof.Machine

/-- `EMBED v` (rule R100). -/
def execEmbed (v : Byte) (s : State) : Host.Outcome State Fault Refusal :=
  let s := restartWalk s
  if s.sampleCount < 8 then .next (raiseException (.insufficientFrameBits s.sampleCount) s)
  else .next (respond .ok 0 (putUnit v (s.setData v)))

/-- `EXTRACT` (rule R104). -/
def execExtract (s : State) : Host.Outcome State Fault Refusal :=
  let s := restartWalk s
  if s.sampleCount < 8 then .next (raiseException (.insufficientFrameBits s.sampleCount) s)
  else
    let (acc, t) := getUnit s
    .next (respond .ok (acc.setWidth 16) (t.setData acc))

end Sys2Proof.Machine
end

