-- ==== Sys2Proof/Machine/Dispatch.lean ====
section
/-! DEFINITION. The meaning of every command: one arm per constructor of `Instr`. -/

namespace Sys2Proof.Machine

/-- Perform one decoded command, to its response (rules R10 and R63). -/
def exec (i : Instr) (s : State) : Host.Outcome State Fault Refusal :=
  match i with
  | .seth n => Sys2Proof.Machine.execSeth n s
  | .setw n => Sys2Proof.Machine.execSetw n s
  | .setc n => Sys2Proof.Machine.execSetc n s
  | .rdreg r => Sys2Proof.Machine.execRdreg r s
  | .seqStart => Sys2Proof.Machine.execSeqStart s
  | .seqGet => Sys2Proof.Machine.execSeqGet s
  | .seqPut b => Sys2Proof.Machine.execSeqPut b s
  | .embed v => Sys2Proof.Machine.execEmbed v s
  | .extract => Sys2Proof.Machine.execExtract s

end Sys2Proof.Machine
end

