-- ==== Sys2Proof/Machine/Step.lean ====
section
/-! DEFINITION. One step of the block: it takes what the host does next. The block has no program counter and fetches
nothing (rule R20); its only source of commands is the command port. -/

namespace Sys2Proof.Machine

/-- Perform one command word, to its response: decode first (rules R66 and R155); an illegal word raises
`IllegalCommand` (rules R67 and R152). -/
def performWord (w : Word) (s : State) : Host.Outcome State Fault Refusal :=
  match decode w with
  | .command i => exec i s
  | .illegal _ => .next (raiseException .illegalCommand s)

/-- One step: the host's next action, whole (rules R10 and R52). With none pending the block waits (rule R171). -/
def step (s : State) : Host.Outcome State Fault Refusal :=
  match s.pending with
  | [] => .next s
  | .command w :: rest => performWord w (takeCommand w rest s)
  | .reset :: rest => .next (applyReset (s.setPending rest))
  | .readSample a :: rest => .next (hostRead a (s.setPending rest))
  | .writeSample a v :: rest => .next (hostWrite a v (s.setPending rest))
  | .loadFrame samples :: rest => .next (hostLoad samples (s.setPending rest))

/-- `s` with the command word `w` (its bits from `nbits` on zero) sent next on the command port, so that the next step
performs it (assumption log 6). -/
def State.withFetchWord (s : State) (nbits w : Nat) : State :=
  s.setPending (.command (BitVec.ofNat 32 (w % 2 ^ nbits)) :: s.pending)

end Sys2Proof.Machine
end

