-- ==== Sys2Proof/Machine/Asm.lean ====
section
/-! DEFINITION. The text syntax of commands (rule R70) and the pseudo-commands (table T10, rule R71). They are outside
the block: an assembler turns a line of text into command words. -/

namespace Sys2Proof.Machine

/-- One line of text, its operands still numbers. -/
inductive Line where
  /-- no command: blank, or only a comment -/
  | blank
  /-- a command of table T9 -/
  | plain (m : Mnemonic) (operand : Option Nat)
  /-- `SETSHAPE h, w, c` -/
  | setShape (h w c : Nat)
  /-- `RDSTATUS` -/
  | rdStatus
  /-- `RDDATA` -/
  | rdData
  /-- `EMBED.BITS v` -/
  | embedBits (v : Nat)
  deriving DecidableEq, Repr

/-- Why the assembler refuses a line. -/
inductive AsmError where
  /-- the text is not of the form of rule R70 -/
  | badText
  /-- an operand is missing, is one too many, or is outside the range of rule R62 -/
  | badOperand
  deriving DecidableEq, Repr

/-- What the assembler answers for one line. -/
inductive Assembled where
  | commands (is : List Instr)
  | error (e : AsmError)
  deriving DecidableEq, Repr

/-! ### From numbers to commands -/

/-- The command of a mnemonic and an operand, refused rather than truncated when the operand is outside its range
(rules R62 and R70). -/
def buildCommand (m : Mnemonic) (operand : Option Nat) : Option Instr :=
  if m.admits operand then
    let n := operand.getD 0
    some (match m with
      | .seth => .seth (BitVec.ofNat 16 n)
      | .setw => .setw (BitVec.ofNat 16 n)
      | .setc => .setc (BitVec.ofNat 16 n)
      | .rdreg => .rdreg (Reg.ofIndex (BitVec.ofNat 3 n))
      | .seqStart => .seqStart
      | .seqGet => .seqGet
      | .seqPut => .seqPut (n == 1)
      | .embed => .embed (BitVec.ofNat 8 n)
      | .extract => .extract)
  else none

/-- The expansion of `SETSHAPE h, w, c` (table T10). -/
def setShapeCommands (h w c : Half) : List Instr := [.seth h, .setw w, .setc c]

/-- The expansion of `EMBED.BITS v` (table T10). -/
def embedBitsCommands (v : Byte) : List Instr :=
  .seqStart :: unitPositions.map fun i => .seqPut (unitBit v i)

/-- The commands of a line; a pseudo-command expands to the sequence of table T10 (rule R71). -/
def Line.assemble : Line → Assembled
  | .blank => .commands []
  | .plain m operand =>
    match buildCommand m operand with
    | some i => .commands [i]
    | none => .error .badOperand
  | .setShape h w c =>
    if h ≤ 65535 ∧ w ≤ 65535 ∧ c ≤ 65535 then
      .commands (setShapeCommands (BitVec.ofNat 16 h) (BitVec.ofNat 16 w) (BitVec.ofNat 16 c))
    else .error .badOperand
  | .rdStatus => .commands [.rdreg .status]
  | .rdData => .commands [.rdreg .data]
  | .embedBits v =>
    if v ≤ 255 then .commands (embedBitsCommands (BitVec.ofNat 8 v)) else .error .badOperand

/-! ### From text to numbers -/

/-- The value of a digit in a base. Hexadecimal letters may be of either case (assumption log 9). -/
def digitValue (base : Nat) (ch : Char) : Option Nat :=
  let n := ch.toNat
  let d :=
    if 48 ≤ n ∧ n ≤ 57 then n - 48
    else if 65 ≤ n ∧ n ≤ 70 then n - 55
    else if 97 ≤ n ∧ n ≤ 102 then n - 87
    else base
  if d < base then some d else none

/-- Digits read from left to right on top of `acc`. -/
def readDigits (base : Nat) : Nat → List Char → Option Nat
  | acc, [] => some acc
  | acc, ch :: rest =>
    match digitValue base ch with
    | some d => readDigits base (acc * base + d) rest
    | none => none

/-- A numeral: `0x` hexadecimal, `0b` binary, or decimal, with at least one digit (rule R70). -/
def readNumeral : List Char → Option Nat
  | [] => none
  | '0' :: 'x' :: ch :: rest => readDigits 16 0 (ch :: rest)
  | '0' :: 'b' :: ch :: rest => readDigits 2 0 (ch :: rest)
  | ch :: rest => readDigits 10 0 (ch :: rest)

/-- The mnemonic in capitals (table T9, rule R70). -/
def mnemonicText : Mnemonic → List Char
  | .seth => "SETH".toList
  | .setw => "SETW".toList
  | .setc => "SETC".toList
  | .rdreg => "RDREG".toList
  | .seqStart => "SEQ.START".toList
  | .seqGet => "SEQ.GET".toList
  | .seqPut => "SEQ.PUT".toList
  | .embed => "EMBED".toList
  | .extract => "EXTRACT".toList

/-- The nine mnemonics. -/
def allMnemonics : List Mnemonic :=
  [.seth, .setw, .setc, .rdreg, .seqStart, .seqGet, .seqPut, .embed, .extract]

/-- The text before the first `stop`, and what stands after it where there is one. -/
def splitAtChar (stop : Char) : List Char → List Char × Option (List Char)
  | [] => ([], none)
  | ch :: rest =>
    if ch = stop then ([], some rest)
    else
      let (before, after) := splitAtChar stop rest
      (ch :: before, after)

/-- The text without the blanks at its end. -/
def dropEndBlanks (text : List Char) : List Char := (text.reverse.dropWhile (· == ' ')).reverse

/-- Three numerals separated by a comma and one space, as table T10 writes them. -/
def readTriple (text : List Char) : Option (Nat × Nat × Nat) :=
  match splitAtChar ',' text with
  | (a, some (' ' :: rest)) =>
    match splitAtChar ',' rest with
    | (b, some (' ' :: c)) =>
      match readNumeral a, readNumeral b, readNumeral c with
      | some x, some y, some z => some (x, y, z)
      | _, _, _ => none
    | _ => none
  | _ => none

/-- The command part of a line: a mnemonic, or a mnemonic, one space and its operand (rules R70 and R71). -/
def readCommand (text : List Char) : Option Line :=
  let (name, operand) := splitAtChar ' ' text
  match allMnemonics.find? fun m => mnemonicText m == name with
  | some m =>
    match operand with
    | none => some (.plain m none)
    | some t => (readNumeral t).map fun n => .plain m (some n)
  | none =>
    if name = "RDSTATUS".toList ∧ operand = none then some .rdStatus
    else if name = "RDDATA".toList ∧ operand = none then some .rdData
    else if name = "EMBED.BITS".toList then (readNumeral (operand.getD [])).map .embedBits
    else if name = "SETSHAPE".toList then
      (readTriple (operand.getD [])).map fun p => .setShape p.1 p.2.1 p.2.2
    else none

/-- A line of text: `;` starts a comment that runs to the end of the line (rule R70). -/
def readLine (text : List Char) : Option Line :=
  match dropEndBlanks (splitAtChar ';' text).1 with
  | [] => some .blank
  | ch :: rest => readCommand (ch :: rest)

/-- The commands that one line of text stands for. -/
def assembleText (text : List Char) : Assembled :=
  match readLine text with
  | some line => line.assemble
  | none => .error .badText

/-! ### From a command to its text -/

/-- The decimal numeral of `n`, of at most `fuel` digits. -/
def decimal : Nat → Nat → List Char
  | 0, _ => []
  | fuel + 1, n => (if n < 10 then [] else decimal fuel (n / 10)) ++ [Char.ofNat (48 + n % 10)]

/-- The operand of a command, as a number. -/
def commandOperand : Instr → Option Nat
  | .seth n | .setw n | .setc n => some n.toNat
  | .rdreg r => some r.index.toNat
  | .seqPut b => some b.toNat
  | .embed v => some v.toNat
  | .seqStart | .seqGet | .extract => none

/-- The text form of a command, its operand in decimal (rule R70). -/
def commandText (i : Instr) : List Char :=
  match commandOperand i with
  | none => mnemonicText i.mnemonic
  | some n => mnemonicText i.mnemonic ++ ' ' :: decimal 5 n

end Sys2Proof.Machine
end

