-- ==== Sys2Proof/Machine/Utf8.lean ====
section
/-! DEFINITION. UTF-8, the text form of a message (rules R134 and R145). The spec names it and does not define it: what
stands here is the family's definition, PRESUMED (RFC 3629; assumption log 13). -/

namespace Sys2Proof.Machine

/-- A byte from a number below 256. -/
abbrev byteOf (n : Nat) : Byte := BitVec.ofNat 8 n

/-- The UTF-8 bytes of one character: one to four, by its number. -/
def charBytes (c : Char) : List Byte :=
  let n := c.toNat
  if n < 0x80 then [byteOf n]
  else if n < 0x800 then [byteOf (0xC0 + n / 64), byteOf (0x80 + n % 64)]
  else if n < 0x10000 then [byteOf (0xE0 + n / 4096), byteOf (0x80 + n / 64 % 64), byteOf (0x80 + n % 64)]
  else [byteOf (0xF0 + n / 262144), byteOf (0x80 + n / 4096 % 64), byteOf (0x80 + n / 64 % 64), byteOf (0x80 + n % 64)]

/-- The UTF-8 bytes of a text. -/
def textBytes (text : List Char) : List Byte := text.flatMap charBytes

/-- The character with number `n`, if there is one and its form is not longer than it need be: at least `least`, at most
0x10FFFF and no surrogate. -/
def charOf? (least n : Nat) : Option Char :=
  if least ≤ n ∧ (n < 0xD800 ∨ 0xDFFF < n ∧ n < 0x110000) then some (Char.ofNat n) else none

/-- Read UTF-8 from inside a character: `more` continuation bytes are still to come, `acc` is what the bytes so far give,
and `least` is the smallest number that this length may give. With `more` zero the next byte begins a character. -/
def readTextFrom : (more acc least : Nat) → List Byte → Option (List Char)
  | 0, _, _, [] => some []
  | _ + 1, _, _, [] => none
  | 0, _, _, b :: rest =>
    let n := b.toNat
    if n < 0x80 then (readTextFrom 0 0 0 rest).map (Char.ofNat n :: ·)
    else if n < 0xC0 then none
    else if n < 0xE0 then readTextFrom 1 (n - 0xC0) 0x80 rest
    else if n < 0xF0 then readTextFrom 2 (n - 0xE0) 0x800 rest
    else if n < 0xF8 then readTextFrom 3 (n - 0xF0) 0x10000 rest
    else none
  | more + 1, acc, least, b :: rest =>
    let n := b.toNat
    if 0x80 ≤ n ∧ n < 0xC0 then
      let acc := acc * 64 + (n - 0x80)
      if more = 0 then
        match charOf? least acc with
        | some c => (readTextFrom 0 0 0 rest).map (c :: ·)
        | none => none
      else readTextFrom more acc least rest
    else none

/-- The text that bytes spell in UTF-8, `none` where they are not valid UTF-8 (rule R145). -/
def readText (bytes : List Byte) : Option (List Char) := readTextFrom 0 0 0 bytes

end Sys2Proof.Machine
end

