-- ==== Sys2Proof/Machine/Framer.lean ====
section
/-! DEFINITION. The HOST of the source's system: the Message Framer with its frame source and sink
(spec/43_host_framer_protocol.md). It is outside the block (spec/00_scope.md section 3): nothing here is part of `State`,
and the block runs without it. It drives the block through `step` alone, one host action at a time. -/

namespace Sys2Proof.Machine

/-- A Pixel Buffer as its samples in the layout of rule R41. -/
abbrev Frame := List Byte

/-- The shape (H, W, C) of every frame of a stream (rules R8 and R131). -/
structure Shape where
  h : Half
  w : Half
  c : Half
  deriving DecidableEq, Repr

/-- H×W×C. -/
def Shape.samples (sh : Shape) : Nat := sh.h.toNat * sh.w.toNat * sh.c.toNat

/-- The error kinds that end the host's work (rules R137, R141, R145). `TruncatedPayload` is a partial result, not one of
these (rule R144). -/
inductive HostError where
  | messageTooLong
  | insufficientFrameBits
  | invalidEncodedText
  deriving DecidableEq, Repr

/-! ### Driving the block -/

/-- The block after the host has done these actions, one step each. -/
def drive : List HostAction → State → State
  | [], s => s
  | a :: rest, s =>
    match step (s.setPending (a :: s.pending)) with
    | .next t => drive rest t
    | .fault _ => s
    | .refused _ => s

/-- The word the block has just sent. -/
def lastResponse (s : State) : Option Word :=
  match s.trace.getLast? with
  | some (.respond w) => some w
  | _ => none

/-- The `status` field of a response, which the host tests before it uses `data` (rules R159 and R180). -/
def responseStatus (w : Word) : BitVec 4 := w.extractLsb' 28 4

/-- The host takes a frame of `n` samples back from frame memory, reading one after the other (rules R52, R72, R141). -/
def takeFrame (n : Nat) (s : State) : Frame × State :=
  ((List.range n).map s.mem.read, drive ((List.range n).map .readSample) s)

/-- Send one command word. -/
def send (i : Instr) : HostAction := .command (encode i)

/-- `SETH`, `SETW`, `SETC`: once, before the first frame (rules R141, R146, R173). -/
def configure (sh : Shape) (s : State) : State :=
  drive ((setShapeCommands sh.h sh.w sh.c).map send) s

/-- `embed_byte(frame, value)` carried out on the block (table T11, rule R72): the mutated frame. -/
def embedByte (frame : Frame) (v : Byte) (s : State) : Option Frame × State :=
  let t := drive [.loadFrame frame, send (.embed v)] s
  match lastResponse t with
  | some r =>
    if responseStatus r = 0 then
      let (written, u) := takeFrame frame.length t
      (some written, u)
    else (none, t)
  | none => (none, t)

/-- A frame that carries no unit: placed in frame memory, no command sent, taken back (rule R141, `p > L`). -/
def passFrame (frame : Frame) (s : State) : Frame × State := takeFrame frame.length (drive [.loadFrame frame] s)

/-- `extract_byte(frame)` carried out on the block (table T11, rule R72): `data[7:0]` of an `OK` response. -/
def extractByte (frame : Frame) (s : State) : Option Byte × State :=
  let t := drive [.loadFrame frame, send .extract] s
  match lastResponse t with
  | some r => if responseStatus r = 0 then (some (r.extractLsb' 0 8), t) else (none, t)
  | none => (none, t)

/-- The Bit-Sequencer's sequence over a frame as the host collects it: the `data[0]` of `SEQ.GET` after `SEQ.GET` until a
response is not `OK` (table T11, rule R72). `fuel` bounds the number of commands. -/
def collectBits : Nat → State → List Bool × State
  | 0, s => ([], s)
  | fuel + 1, s =>
    let t := drive [send .seqGet] s
    match lastResponse t with
    | some r =>
      if responseStatus r = 0 then
        let (bits, u) := collectBits fuel t
        (r.getLsbD 0 :: bits, u)
      else ([], t)
    | none => ([], t)

/-! ### Embedding (section 2) -/

/-- `max_payload_bytes = frame_count() - 1` (rule R135). -/
def maxPayloadBytes (frames : List Frame) : Int := (frames.length : Int) - 1

/-- "message byte length > 255, or exceeds `max_payload_bytes`" (rule R137). -/
def messageTooLong (message : List Byte) (frames : List Frame) : Bool :=
  decide (message.length > 255 ∨ (message.length : Int) > maxPayloadBytes frames)

/-- The Payload Unit that the frame at Frame Stream Position `p` carries, if any (rules R133 and R138). -/
def unitAt (message : List Byte) : Nat → Option Byte
  | 0 => some (BitVec.ofNat 8 message.length)
  | p + 1 => message[p]?

/-- What embedding gives: the frames the sink has received, in order, and the error that ended it, if any. -/
structure EmbedResult where
  sink : List Frame
  error : Option HostError
  deriving DecidableEq, Repr

/-- What the host does with one frame: `EMBED` where it carries a unit, no command where it carries none; in both cases
through frame memory (rule R141). `none` where the block answered an error. -/
def embedFrame (unit : Option Byte) (frame : Frame) (s : State) : Option Frame × State :=
  match unit with
  | some v => embedByte frame v s
  | none =>
    let (passed, t) := passFrame frame s
    (some passed, t)

/-- The embedding state machine from position `p` on (rules R138, R139, R141): every frame goes through frame memory and to
the sink, in order; an error ends it. -/
def embedFrames (message : List Byte) : Nat → List Frame → State → EmbedResult × State
  | _, [], s => (⟨[], none⟩, s)
  | p, frame :: rest, s =>
    match embedFrame (unitAt message p) frame s with
    | (none, t) => (⟨[], some .insufficientFrameBits⟩, t)
    | (some out, t) =>
      let (r, u) := embedFrames message (p + 1) rest t
      (⟨out :: r.sink, r.error⟩, u)

/-- Encode a message into a stream: the length check before any frame is processed (rule R137), the shape once, then frame
by frame (rule R141): the `encode` of rule R149 on the bytes of a message. -/
def embedMessage (sh : Shape) (message : List Byte) (frames : List Frame) (s : State) : EmbedResult × State :=
  if messageTooLong message frames then (⟨[], some .messageTooLong⟩, s)
  else embedFrames message 0 frames (configure sh s)

/-! ### Decoding (section 3) -/

/-- What decoding gives. -/
inductive DecodeResult where
  /-- the whole message, as text (rule R145) -/
  | message (text : List Char)
  /-- `TruncatedPayload`: the source ended first; the short byte buffer (rule R144) and its text -/
  | truncatedPayload (bytes : List Byte) (text : List Char)
  /-- a hard error -/
  | failed (e : HostError)
  deriving DecidableEq, Repr

/-- Up to `n` further frames, one byte each (rules R143 and R144); `none` where a frame is too small. -/
def extractFrames : Nat → List Frame → State → Option (List Byte) × State
  | 0, _, s => (some [], s)
  | _ + 1, [], s => (some [], s)
  | n + 1, frame :: rest, s =>
    match extractByte frame s with
    | (none, t) => (none, t)
    | (some v, t) =>
      let (r, u) := extractFrames n rest t
      (r.map (v :: ·), u)

/-- The final step (rules R144 and R145): the bytes are read as UTF-8, and are `InvalidEncodedText` where they are not
valid; `n` is the number expected. That a truncated buffer is read too is assumption log 10. -/
def finishDecoding (n : Nat) (bytes : List Byte) : DecodeResult :=
  match readText bytes with
  | none => .failed .invalidEncodedText
  | some text => if bytes.length < n then .truncatedPayload bytes text else .message text

/-- Decode a message from a stream: the shape once, the length from the first frame, then exactly that many frames (rules
R142 to R146): the `decode` of rule R149. -/
def decodeMessage (sh : Shape) (frames : List Frame) (s : State) : DecodeResult × State :=
  match frames with
  | [] => (.truncatedPayload [] [], configure sh s)
  | first :: rest =>
    match extractByte first (configure sh s) with
    | (none, t) => (.failed .insufficientFrameBits, t)
    | (some count, t) =>
      match extractFrames count.toNat rest t with
      | (none, u) => (.failed .insufficientFrameBits, u)
      | (some bytes, u) => (finishDecoding count.toNat bytes, u)

/-! ### The whole system (section 5, rule R149) -/

/-- `encode(M)` of rule R149: a UTF-8 message, given as its text, written into a stream of frames. -/
def encodeText (sh : Shape) (text : List Char) (frames : List Frame) (s : State) : EmbedResult × State :=
  embedMessage sh (textBytes text) frames s

/-- `decode(encode(M))` of rule R149: what embedding gives, and what decoding the frames of its sink gives on a block in a
state `s'` of its own. -/
def decodeEncodedText (sh : Shape) (text : List Char) (frames : List Frame) (s s' : State) : EmbedResult × DecodeResult :=
  let encoded := (encodeText sh text frames s).1
  (encoded, (decodeMessage sh encoded.sink s').1)

/-- The outcomes that rule R149 allows for decoding frames that carry no message: `TruncatedPayload`, `InvalidEncodedText`,
or by chance a message. -/
def DecodeResult.allowedWithoutMessage : DecodeResult → Bool
  | .message _ | .truncatedPayload _ _ | .failed .invalidEncodedText => true
  | .failed .messageTooLong | .failed .insufficientFrameBits => false

end Sys2Proof.Machine
end

