-- ==== Sys2Proof/Safety.lean ====
section
/-! DEFINITION. What holds of the block along every run, in the terms the statements use: the form of the walk (rule R15),
the trace as a faithful record of frame memory (rule R53), of the sticky bits (rule R21) and of the conversation at the
ports (rules R10, R52, R53, R63, R127). -/

namespace Sys2Proof.Machine

/-! ### The walk (rule R15) -/

/-- The start form: (0, 0, 0), whatever the shape. -/
abbrev State.walkAtStart (s : State) : Prop := s.row = 0 ∧ s.col = 0 ∧ s.ch = 0

/-- The inside form: every counter below its extent. -/
abbrev State.walkInside (s : State) : Prop :=
  s.row.toNat < s.h.toNat ∧ s.col.toNat < s.w.toNat ∧ s.ch.toNat < s.c.toNat

/-- The end form: (`H`, 0, 0) with `N() > 0`. -/
abbrev State.walkAtEnd (s : State) : Prop := s.row = s.h ∧ s.col = 0 ∧ s.ch = 0 ∧ 0 < s.sampleCount

/-- The walk invariant of rule R15: between commands the walk is in one of three forms. -/
abbrev WalkForm (s : State) : Prop := s.walkAtStart ∨ s.walkInside ∨ s.walkAtEnd

/-! ### Runs of commands and what they show -/

/-- Perform decoded commands one after the other. -/
def execAll : List Instr → State → Host.Outcome State Fault Refusal
  | [], s => .next s
  | i :: rest, s =>
    match exec i s with
    | .next t => execAll rest t
    | .fault r => .fault r
    | .refused r => .refused r

/-- The event is an access of the block to frame memory. -/
def Event.isAccess : Event → Bool
  | .read _ _ | .write _ _ => true
  | _ => false

/-- The address of an access of the block to frame memory. -/
def Event.accessAddress : Event → Option Nat
  | .read a _ | .write a _ => some a
  | _ => none

/-- The word of a command. -/
def Event.commandWord : Event → Option Word
  | .command w => some w
  | _ => none

/-- The frame that the host placed in frame memory. -/
def Event.placedFrame : Event → Option (List Byte)
  | .hostLoad samples => some samples
  | _ => none

/-- The sample that the host took from frame memory. -/
def Event.takenSample : Event → Option Byte
  | .hostRead _ v => some v
  | _ => none

/-- What happened between `s` and a later state `t` of the same run. -/
def eventsSince (s t : State) : List Event := t.trace.drop s.trace.length

/-- What the `j`-th command of a run of `SEQ.GET` and `SEQ.PUT` commands shows when the walk began at Bit Position 0 in
frame memory `m` of `count` samples (rule R85). -/
def bitCommandEvents (m : Memory) (count j : Nat) (i : Instr) : List Event :=
  if j < count then
    match i with
    | .seqPut b =>
      [.read j (m.read j), .write j (setLsb (m.read j) b), .respond (responseWord .ok (bitData (lsb (m.read j))))]
    | _ => [.read j (m.read j), .respond (responseWord .ok (bitData (lsb (m.read j))))]
  else [.respond (responseWord .eos 0)]

/-- What a whole run of such commands shows, from its `j`-th command on. -/
def bitRunEvents (m : Memory) (count : Nat) : Nat → List Instr → List Event
  | _, [] => []
  | j, i :: rest => bitCommandEvents m count j i ++ bitRunEvents m count (j + 1) rest

/-- The command is `SEQ.GET` or `SEQ.PUT`. -/
def isBitCommand (i : Instr) : Bool :=
  match i with
  | .seqGet | .seqPut _ => true
  | _ => false

/-! ### The trace as a record -/

/-- Frame memory after these events, starting from `m`; `none` if some read saw another value than the latest earlier
write, load or unplaced sample gives (rule R53). -/
def replay : Memory → List Event → Option Memory
  | m, [] => some m
  | m, .read a v :: rest => if v = m.read a then replay m rest else none
  | m, .hostRead a v :: rest => if v = m.read a then replay m rest else none
  | m, .write a v :: rest => replay (m.write a v) rest
  | m, .hostWrite a v :: rest => replay (m.write a v) rest
  | m, .hostLoad samples :: rest => replay (m.load samples) rest
  | m, .command _ :: rest => replay m rest
  | m, .respond _ :: rest => replay m rest
  | m, .reset :: rest => replay m rest

/-- Frame memory is what the trace says it is, and every read saw what it should (rule R53). -/
abbrev TraceGivesMemory (s : State) : Prop := replay State.reset.mem s.trace = some s.mem

/-- The two sticky bits (`E_IFB`, `E_ILL`) after one more event (rule R21). -/
def stickyAfter (p : Bool × Bool) : Event → Bool × Bool
  | .reset => (false, false)
  | .respond w => (p.1 || w == responseWord .ifb 0, p.2 || w == responseWord .ill 0)
  | _ => p

/-- Each sticky bit is one exactly when its error has been answered since the latest reset (rule R21, table T13). -/
abbrev TraceGivesSticky (s : State) : Prop := s.trace.foldl stickyAfter (false, false) = (s.eIfb, s.eIll)

/-- Where the conversation at the ports stands. -/
inductive Talk where
  /-- between commands: the frame memory is the host's -/
  | idle
  /-- a command is being performed: the frame memory is the block's -/
  | busy
  /-- a command is being performed and its latest event is this read -/
  | justRead (address : Nat) (v : Byte)
  deriving DecidableEq, Repr

/-- The grammar of the conversation: the host acts only between commands; a command's accesses come between the command
word and its one response; the block writes only the sample it has just read, and only its bit 0 (rules R10, R50, R52,
R53, R63, R127). -/
def Talk.next (k : Talk) (e : Event) : Option Talk :=
  match e with
  | .command _ => if k = .idle then some .busy else none
  | .read a v => if k = .idle then none else some (.justRead a v)
  | .write a v =>
    match k with
    | .justRead b x => if a = b ∧ v &&& 0xFE = x &&& 0xFE then some .busy else none
    | _ => none
  | .respond _ => if k = .idle then none else some .idle
  | .reset | .hostRead _ _ | .hostWrite _ _ | .hostLoad _ => if k = .idle then some .idle else none

/-- The conversation after a list of events. -/
def Talk.after : Talk → List Event → Option Talk
  | k, [] => some k
  | k, e :: rest => (k.next e).bind fun k' => Talk.after k' rest

/-- The trace is a whole number of exchanges. -/
abbrev TraceIsConversation (s : State) : Prop := Talk.after .idle s.trace = some .idle

end Sys2Proof.Machine
end

