-- ==== Sys2Proof/Certificates/Slice0/Obligations.lean ====
section
/-! DEFINITION. The statements for the provers. Each says in its docstring which rule of spec/ it formalises. What the block
answers on its response port, and its accesses to frame memory, are read from `trace` (assumption log 2); what the host does
next is `pending` (assumption log 1). Both are the model's own fields and stand for the ports of rule R60. -/

open Sys2Proof Sys2Proof.Machine

/-! ### Encoding -/

/-- Decode and encode agree on every command, with every operand at every value its encoding admits (tables T6 and
T9). -/
def Obligations.DecodeOfEncode : Prop :=
  ∀ i : Instr, decode (encode i) = .command i

/-- Each command has one word: a word that decodes to a command is that command's encoding (rule R62: no operand bit is
ignored or masked). -/
def Obligations.EncodeOfDecode : Prop :=
  ∀ (w : Word) (i : Instr), decode w = .command i → encode i = w

/-- Rule R65: nine rows; a word is the command of a row exactly when the row accepts it; no word is accepted by two
rows. -/
def Obligations.WordIsTheCommandOfItsRow : Prop :=
  opcodeTable.length = 9 ∧
  (∀ (w : Word) (m : Mnemonic),
    (∃ i, decode w = .command i ∧ i.mnemonic = m) ↔ ∃ r ∈ opcodeTable, r.mnemonic = m ∧ r.accepts w = true) ∧
  (∀ (w : Word), ∀ r ∈ opcodeTable, ∀ r' ∈ opcodeTable, r.accepts w = true → r'.accepts w = true → r = r')

/-- Some words written out in table T9 and in the vectors of spec/95_test_vectors.md decode to the commands they stand
for. -/
def Obligations.WordsOfTheSpecDecode : Prop :=
  decode 0x01000004 = .command (.seth 4) ∧ decode 0x02000280 = .command (.setw 640) ∧
  decode 0x03000003 = .command (.setc 3) ∧ decode 0x08000007 = .command (.rdreg .status) ∧
  decode 0x10000000 = .command .seqStart ∧ decode 0x11000000 = .command .seqGet ∧
  decode 0x12000001 = .command (.seqPut true) ∧ decode 0x20000068 = .command (.embed 0x68) ∧
  decode 0x21000000 = .command .extract ∧ decode 0x20000100 = .illegal .operandBitsNotZero

/-- Rules R67 and R152: the illegal words are those of the three kinds that rule R67 lists, and one that arrives on the
command port sets `E_ILL` and answers `ILL` with data 0, and does nothing else. -/
def Obligations.IllegalWordIsRefusedAndAnswered : Prop :=
  ∀ w : Word,
    ((∃ why, decode w = .illegal why) ↔
      reservedZero w = false ∨ opcodeAssigned w = false ∨ operandBitsZero w = false) ∧
    ∀ (s : State) (rest : List HostAction) (why : Illegal),
      s.pending = .command w :: rest → decode w = .illegal why →
        step s = .next { s with
          eIll := true, pending := rest, trace := s.trace ++ [.command w, .respond 0x30000000] }

/-! ### A step -/

/-- A step runs the decoded instruction: the command word is taken from the port and its meaning is the whole of the
rest. -/
def Obligations.StepPerformsDecodedCommand : Prop :=
  ∀ (s : State) (w : Word) (rest : List HostAction) (i : Instr),
    s.pending = .command w :: rest → decode w = .command i →
      step s = exec i { s with pending := rest, trace := s.trace ++ [.command w] }

/-- The block waits while no command comes (rule R171; that a step without one changes nothing is the model's choice,
assumption log 1), and what the host does between commands reaches frame memory only (rules R52 and R178). -/
def Obligations.HostActsOnlyOnFrameMemory : Prop :=
  ∀ (s : State) (rest : List HostAction),
    (s.pending = [] → step s = .next s) ∧
    (∀ a, s.pending = .readSample a :: rest →
      step s = .next { s with pending := rest, trace := s.trace ++ [.hostRead a (s.mem.read a)] }) ∧
    (∀ a v, s.pending = .writeSample a v :: rest → ∃ t,
      step s = .next t ∧ (∀ b, t.mem.read b = if b = a then v else s.mem.read b) ∧
      t = { s with mem := t.mem, pending := rest, trace := s.trace ++ [.hostWrite a v] }) ∧
    (∀ samples, s.pending = .loadFrame samples :: rest → ∃ t,
      step s = .next t ∧ (∀ k v, samples[k]? = some v → t.mem.read k = v) ∧
      t = { s with mem := t.mem, pending := rest, trace := s.trace ++ [.hostLoad samples] })

/-! ### Reset -/

/-- Rule R30: all eight registers read zero except `STATUS`, which reads 0x0001, in the state after power-on and after a
reset step; a reset step does not touch frame memory and sends no response. -/
def Obligations.ResetPutsEveryRegisterInItsValue : Prop :=
  (∀ r, readReg State.reset r = if r = .status then 1 else 0) ∧
  ∀ (s : State) (rest : List HostAction), s.pending = .reset :: rest → ∃ t,
    step s = .next t ∧ (∀ r, readReg t r = if r = .status then 1 else 0) ∧ t.eIfb = false ∧ t.eIll = false ∧
    t.mem = s.mem ∧ t.pending = rest ∧ t.trace = s.trace ++ [.reset]

/-- Rule R31: with the registers of reset, `N() = 0`, the walk is exhausted, `SEQ.GET` and `SEQ.PUT` answer `EOS`,
`EMBED` and `EXTRACT` raise `InsufficientFrameBits`, and no command touches frame memory. The spec marks rule R31 as
its own inference. -/
def Obligations.UnconfiguredBlockTouchesNoMemory : Prop :=
  ∀ s : State, (s.h = 0 ∧ s.w = 0 ∧ s.c = 0) → (s.row = 0 ∧ s.col = 0 ∧ s.ch = 0) →
    s.sampleCount = 0 ∧ s.exhausted = true ∧
    (∀ i, i = .seqGet ∨ (∃ b, i = .seqPut b) →
      exec i s = .next { s with trace := s.trace ++ [.respond 0x10000000] }) ∧
    (∀ i, i = .extract ∨ (∃ v, i = .embed v) →
      exec i s = .next { s with eIfb := true, trace := s.trace ++ [.respond 0x20000000] }) ∧
    (∀ i, ∃ t r, exec i s = .next t ∧ t.mem = s.mem ∧ t.trace = s.trace ++ [.respond r])

/-- From rules R21, R158 and R170: a sticky bit that is one stays one through every step but a reset. -/
def Obligations.OnlyResetClearsStickyBits : Prop :=
  ∀ s t : State, step s = .next t → (∀ rest, s.pending ≠ .reset :: rest) →
    (s.eIfb = true → t.eIfb = true) ∧ (s.eIll = true → t.eIll = true)

/-! ### Configuration and register access -/

/-- Rules R120, R121 and R122: each sets its extent, restarts the walk and answers `OK`, and changes nothing else; `EXH`
reads afterwards as 1 exactly when the new `N()` is 0. -/
def Obligations.ShapeCommandsSetOneExtentAndRestartTheWalk : Prop :=
  ∀ n : Half,
    encode (.seth n) = 0x01000000 ||| n.setWidth 32 ∧
    encode (.setw n) = 0x02000000 ||| n.setWidth 32 ∧
    encode (.setc n) = 0x03000000 ||| n.setWidth 32 ∧
    ∀ s : State,
      (∃ t, exec (.seth n) s = .next t ∧
        t = { s with h := n, row := 0, col := 0, ch := 0, trace := s.trace ++ [.respond 0] } ∧
        t.statusWord.getLsbD 0 = decide (n.toNat * s.w.toNat * s.c.toNat = 0)) ∧
      (∃ t, exec (.setw n) s = .next t ∧
        t = { s with w := n, row := 0, col := 0, ch := 0, trace := s.trace ++ [.respond 0] } ∧
        t.statusWord.getLsbD 0 = decide (s.h.toNat * n.toNat * s.c.toNat = 0)) ∧
      (∃ t, exec (.setc n) s = .next t ∧
        t = { s with c := n, row := 0, col := 0, ch := 0, trace := s.trace ++ [.respond 0] } ∧
        t.statusWord.getLsbD 0 = decide (s.h.toNat * s.w.toNat * n.toNat = 0))

/-- Rule R124: `RDREG i` answers the register's value and changes nothing; bits 15:3 of `STATUS` read zero, then
`E_ILL`, `E_IFB`, and `EXH` computed at the moment of the read. A word with `op` 0x08 and an index of 8 or more is not
`RDREG`. -/
def Obligations.RdregAnswersTheRegister : Prop :=
  (∀ imm : Half, 8 ≤ imm.toNat → decode (0x08000000 ||| imm.setWidth 32) = .illegal .operandBitsNotZero) ∧
  ∀ (r : Reg) (s : State),
    encode (.rdreg r) = 0x08000000 ||| r.index.setWidth 32 ∧
    (∃ value : Half,
      exec (.rdreg r) s = .next { s with trace := s.trace ++ [.respond (value.setWidth 32)] } ∧
      (match r with
        | .h => value = s.h
        | .w => value = s.w
        | .c => value = s.c
        | .row => value = s.row
        | .col => value = s.col
        | .ch => value = s.ch
        | .data => value = s.data.setWidth 16
        | .status =>
          value.toNat = (decide (s.sampleCount ≤ s.pos)).toNat + 2 * s.eIfb.toNat + 4 * s.eIll.toNat))

/-- Rule R13: `N()` is the exact product, at most 65535^3, which is less than 2^48. -/
def Obligations.SampleCountIsExactBelowTwoTo48 : Prop :=
  ∀ s : State,
    s.sampleCount = s.h.toNat * s.w.toNat * s.c.toNat ∧ s.sampleCount ≤ 281462092005375 ∧
    s.sampleCount < 2 ^ 48

/-! ### The walk -/

/-- Rule R82: from a position that is not the end, `advance()` moves the channel fastest, then the column, then the
row, by one position; the walk keeps its form, and from the last position it comes to (`H`, 0, 0). -/
def Obligations.AdvanceMovesOnePositionOn : Prop :=
  ∀ s : State, WalkForm s → s.exhausted = false →
    s.walkInside ∧
    advance s =
      (if s.ch.toNat + 1 < s.c.toNat then { s with ch := s.ch + 1 }
       else if s.col.toNat + 1 < s.w.toNat then { s with ch := 0, col := s.col + 1 }
       else { s with ch := 0, col := 0, row := s.row + 1 }) ∧
    (advance s).pos = s.pos + 1 ∧
    ((advance s).walkInside ∨ (advance s).walkAtEnd) ∧
    (s.pos + 1 = s.sampleCount → (advance s).row = s.h ∧ (advance s).col = 0 ∧ (advance s).ch = 0)

/-- Rule R16: an inside walk stands at the coordinates of its Bit Position, and the coordinates of every Bit Position
are an inside walk that stands there. -/
def Obligations.CoordinatesOfABitPosition : Prop :=
  (∀ s : State, s.walkInside →
    s.pos < s.sampleCount ∧
    s.row.toNat = s.pos / (s.w.toNat * s.c.toNat) ∧
    s.col.toNat = s.pos / s.c.toNat % s.w.toNat ∧
    s.ch.toNat = s.pos % s.c.toNat) ∧
  ∀ (s : State) (k : Nat), k < s.sampleCount → ∃ t : State,
    t = { s with row := t.row, col := t.col, ch := t.ch } ∧ t.walkInside ∧ t.pos = k ∧
    t.row.toNat = k / (s.w.toNat * s.c.toNat) ∧
    t.col.toNat = k / s.c.toNat % s.w.toNat ∧
    t.ch.toNat = k % s.c.toNat

/-- Rule R17: 0 ≤ `POS()` ≤ `N()`, the start form gives 0, the end form gives `N()`, and for `N() > 0` two walks of the
three forms with one shape and one position are the same. The spec marks rule R17 as its own inference. -/
def Obligations.PositionNamesTheWalk : Prop :=
  (∀ s : State, WalkForm s →
    s.pos ≤ s.sampleCount ∧ (s.walkAtStart → s.pos = 0) ∧ (s.walkAtEnd → s.pos = s.sampleCount)) ∧
  ∀ s t : State, WalkForm s → WalkForm t → (s.h = t.h ∧ s.w = t.w ∧ s.c = t.c) → 0 < s.sampleCount →
    s.pos = t.pos → s.row = t.row ∧ s.col = t.col ∧ s.ch = t.ch

/-- Rule R18: the walk is exhausted exactly in the end form, and in the start form when `N() = 0`. The spec marks
rule R18 as its own inference. -/
def Obligations.ExhaustedExactlyAtTheEnd : Prop :=
  ∀ s : State, WalkForm s →
    (s.exhausted = true ↔ s.walkAtEnd ∨ (s.walkAtStart ∧ s.sampleCount = 0))

/-- Rule R92: where a pixel has three channels and a row at least three pixels, Bit Position `k`, for `k` up to 8, is
channel `k mod 3` of pixel (0, `k div 3`), whatever `H` is. The spec marks rule R92 as its own inference. -/
def Obligations.FirstPositionsLieInTheFirstThreePixels : Prop :=
  ∀ (s : State) (k : Nat), s.c = 3 → 3 ≤ s.w.toNat → 8 ≤ s.sampleCount → k ≤ 8 →
    let t := advance^[k] (restartWalk s)
    t.row = 0 ∧ t.col.toNat = k / 3 ∧ t.ch.toNat = k % 3

/-! ### The Bit-Sequencer commands -/

/-- Rule R80: `SEQ.START` restarts the walk at Bit Position 0, whatever came before, and changes nothing else. -/
def Obligations.SeqStartRestartsTheWalk : Prop :=
  encode .seqStart = 0x10000000 ∧
  ∀ s : State, ∃ t,
    exec .seqStart s = .next t ∧
    t = { s with row := 0, col := 0, ch := 0, trace := s.trace ++ [.respond 0] } ∧
    t.pos = 0 ∧ t.statusWord.getLsbD 0 = decide (s.sampleCount = 0)

/-- Rule R83: `SEQ.GET` yields bit 0 of the sample at the walk's position and moves the walk on; it changes no sample,
no other register and no flag. -/
def Obligations.SeqGetYieldsTheBitAndMovesOn : Prop :=
  encode .seqGet = 0x11000000 ∧
  ∀ s : State,
    if s.exhausted then exec .seqGet s = .next { s with trace := s.trace ++ [.respond 0x10000000] }
    else
      exec .seqGet s = .next { s with
        row := (advance s).row, col := (advance s).col, ch := (advance s).ch,
        trace := s.trace ++
          [.read s.pos (s.mem.read s.pos),
           .respond (if (s.mem.read s.pos).getLsbD 0 then 0x00000001 else 0x00000000)] }

/-- Rule R84: `SEQ.PUT b` answers the old bit, overwrites bit 0 of the sample at the walk's position with `b`, keeps
bits 7:1 and every other sample, and moves the walk on. -/
def Obligations.SeqPutOverwritesTheBitAndMovesOn : Prop :=
  ∀ b : Bool, encode (.seqPut b) = (if b then 0x12000001 else 0x12000000) ∧
  ∀ s : State,
    if s.exhausted then exec (.seqPut b) s = .next { s with trace := s.trace ++ [.respond 0x10000000] }
    else ∃ (t : State) (old new : Byte),
      exec (.seqPut b) s = .next t ∧
      old = s.mem.read s.pos ∧
      new = (old &&& 0xFE) ||| (if b then 1 else 0) ∧
      (∀ a, t.mem.read a = if a = s.pos then new else s.mem.read a) ∧
      new.toNat + (old.getLsbD 0).toNat = old.toNat + b.toNat ∧
      t = { s with
        row := (advance s).row, col := (advance s).col, ch := (advance s).ch, mem := t.mem,
        trace := s.trace ++
          [.read s.pos old, .write s.pos new,
           .respond (if old.getLsbD 0 then 0x00000001 else 0x00000000)] }

/-- Rule R86: at the end of the sequence `SEQ.GET` and `SEQ.PUT` do nothing but answer `EOS`, as many times as they are
sent, and only a command that restarts the walk leaves the end. -/
def Obligations.ExhaustedWalkStaysAtItsEnd : Prop :=
  ∀ s : State, s.exhausted = true →
    (∀ is : List Instr, (∀ i ∈ is, isBitCommand i = true) →
      execAll is s = .next { s with trace := s.trace ++ is.map fun _ => .respond 0x10000000 }) ∧
    (∀ i t, exec i s = .next t → t.exhausted = false →
      i.mnemonic ≠ .seqGet ∧ i.mnemonic ≠ .seqPut ∧ i.mnemonic ≠ .rdreg ∧
      (t.walkAtStart ∨ (i.mnemonic = .embed ∨ i.mnemonic = .extract) ∧ t.pos = 8))

/-- Rules R81 and R85: after `SEQ.START`, a run of `SEQ.GET` and `SEQ.PUT` commands in any mixture visits Bit
Positions 0, 1, … in order, one a command; the j-th answers bit 0 of the sample at address j as it was, or `EOS` from
`N()` on. So `N()` `SEQ.GET` commands answer the whole sequence of the frame. The spec marks rule R85 as its own
inference. -/
def Obligations.RunOfBitCommandsYieldsTheSequence : Prop :=
  (∀ (s : State) (is : List Instr), (∀ i ∈ is, isBitCommand i = true) → ∃ t,
    execAll (.seqStart :: is) s = .next t ∧
    t.trace = s.trace ++ [.respond 0] ++ bitRunEvents s.mem s.sampleCount 0 is) ∧
  ∀ s : State, ∃ t,
    execAll (.seqStart :: List.replicate (s.sampleCount + 1) .seqGet) s = .next t ∧
    t.mem = s.mem ∧
    (eventsSince s t).filter (fun e => !e.isAccess) =
      [.respond 0] ++
      (List.range s.sampleCount).map (fun k => .respond (if (s.mem.read k).getLsbD 0 then 1 else 0)) ++
      [.respond 0x10000000]

/-! ### The Frame Codec commands -/

/-- Rule R100: `EMBED v` writes the 8 bits of `v`, most significant first, into bit 0 of the samples at addresses 0 to
7, each read before it is written, in order; sets `DATA`; leaves the walk at Bit Position 8. With fewer than 8 samples
it restarts the walk, raises `InsufficientFrameBits` and touches no sample. -/
def Obligations.EmbedWritesThePayloadUnit : Prop :=
  ∀ v : Byte, encode (.embed v) = 0x20000000 ||| v.setWidth 32 ∧
  ∀ s : State,
    if s.sampleCount < 8 then
      exec (.embed v) s = .next { s with
        row := 0, col := 0, ch := 0, eIfb := true, trace := s.trace ++ [.respond 0x20000000] }
    else ∃ (t : State) (new : Nat → Byte),
      exec (.embed v) s = .next t ∧
      (∀ i, new i = (s.mem.read i &&& 0xFE) ||| (if v.getLsbD (7 - i) then 1 else 0)) ∧
      (∀ a, t.mem.read a = if a < 8 then new a else s.mem.read a) ∧
      t = { s with
        row := t.row, col := t.col, ch := t.ch, data := v, mem := t.mem,
        trace := s.trace ++ [0, 1, 2, 3, 4, 5, 6, 7].flatMap (fun i => [.read i (s.mem.read i), .write i (new i)])
          ++ [.respond 0] } ∧
      t.pos = 8 ∧ WalkForm t ∧ t.exhausted = decide (s.sampleCount = 8)

/-- Rule R104: `EXTRACT` reads bit 0 of the samples at addresses 0 to 7, in order, and assembles them first bit most
significant into the value it answers and leaves in `DATA`; it writes no sample and leaves the walk at Bit Position 8.
With fewer than 8 samples it restarts the walk and raises `InsufficientFrameBits`. -/
def Obligations.ExtractReadsThePayloadUnit : Prop :=
  encode .extract = 0x21000000 ∧
  ∀ s : State,
    if s.sampleCount < 8 then
      exec .extract s = .next { s with
        row := 0, col := 0, ch := 0, eIfb := true, trace := s.trace ++ [.respond 0x20000000] }
    else ∃ (t : State) (acc : Byte),
      exec .extract s = .next t ∧
      acc.toNat = ((List.range 8).map fun i => ((s.mem.read i).getLsbD 0).toNat * 2 ^ (7 - i)).sum ∧
      t = { s with
        row := t.row, col := t.col, ch := t.ch, data := acc,
        trace := s.trace ++ (List.range 8).map (fun i => .read i (s.mem.read i)) ++ [.respond (acc.setWidth 32)] } ∧
      t.pos = 8 ∧ WalkForm t

/-- Rules R101 and R102: after `EMBED` every sample from address 8 on, and bits 7:1 of every sample, are what they
were; a written sample is `old`, `old + 1` (old even, bit written 1) or `old - 1` (old odd, bit written 0); after a
failed `EMBED` the whole frame is what it was. -/
def Obligations.EmbedChangesEachSampleByAtMostOne : Prop :=
  ∀ (v : Byte) (s t : State), exec (.embed v) s = .next t →
    (s.sampleCount < 8 → t.mem = s.mem) ∧
    (8 ≤ s.sampleCount →
      (∀ a, 8 ≤ a → t.mem.read a = s.mem.read a) ∧
      ∀ a, a < 8 →
        (t.mem.read a &&& 0xFE = s.mem.read a &&& 0xFE) ∧
        (t.mem.read a = s.mem.read a ∨
         ((s.mem.read a).toNat % 2 = 0 ∧ v.getLsbD (7 - a) = true ∧
            (t.mem.read a).toNat = (s.mem.read a).toNat + 1) ∨
         ((s.mem.read a).toNat % 2 = 1 ∧ v.getLsbD (7 - a) = false ∧
            (t.mem.read a).toNat + 1 = (s.mem.read a).toNat)))

/-- Rule R103: a successful `EMBED v` writes exactly 8 samples; the sample at position i changes exactly when its old
bit 0 differs from `v[7 - i]`; the number that change is the number of ones in `v XOR e`, with `e` what `EXTRACT`
would have answered just before. The spec marks rule R103 as its own inference. -/
def Obligations.EmbedChangesAsManySamplesAsBitsDiffer : Prop :=
  ∀ (v : Byte) (s t u : State), 8 ≤ s.sampleCount → exec (.embed v) s = .next t → exec .extract s = .next u →
    ((eventsSince s t).countP fun e => match e with | .write _ _ => true | _ => false) = 8 ∧
    (∀ i, i < 8 → (t.mem.read i ≠ s.mem.read i ↔ (s.mem.read i).getLsbD 0 ≠ v.getLsbD (7 - i))) ∧
    ((List.range 8).countP fun i => decide (t.mem.read i ≠ s.mem.read i)) =
      ((List.range 8).countP fun k => (v ^^^ u.data).getLsbD k)

/-- Rule R105: `EXTRACT` does not change frame memory, and its answer is a function of the 8 low bits alone, so two
`EXTRACT` commands answer the same as long as those bits are the same. -/
def Obligations.ExtractDependsOnEightLowBitsAlone : Prop :=
  ∀ s s' t : State, exec .extract s = .next t →
    t.mem = s.mem ∧
    (8 ≤ s.sampleCount → 8 ≤ s'.sampleCount →
      (∀ a, a < 8 → (s'.mem.read a).getLsbD 0 = (s.mem.read a).getLsbD 0) →
      ∃ t', exec .extract s' = .next t' ∧ t'.data = t.data ∧ t'.trace.getLast? = t.trace.getLast?)

/-- Rule R106: a successful `EMBED v` followed by `EXTRACT`, in any later state with as large a frame whose 8 first
samples are as `EMBED` left them, answers `v`. -/
def Obligations.ExtractAfterEmbedAnswersTheUnit : Prop :=
  ∀ (v : Byte) (s : State), 8 ≤ s.sampleCount → ∃ t, exec (.embed v) s = .next t ∧
    ∀ s' : State, (s'.h = t.h ∧ s'.w = t.w ∧ s'.c = t.c) → (∀ a, a < 8 → s'.mem.read a = t.mem.read a) →
      ∃ u, exec .extract s' = .next u ∧ u.data = v ∧ u.trace.getLast? = some (.respond (v.setWidth 32))

/-- Rule R107: the last write wins, and a repeat is harmless: `EMBED u` then `EMBED v` leaves the frame as `EMBED v`
alone does. In a memory of canonical form (the model's own, assumption log 3) the two memories are the same data. The
spec marks rule R107 as its own inference. -/
def Obligations.LastEmbedWins : Prop :=
  ∀ (u v : Byte) (s : State), ∃ t t' : State,
    execAll [.embed u, .embed v] s = .next t ∧ exec (.embed v) s = .next t' ∧
    (∀ a, t.mem.read a = t'.mem.read a) ∧ (s.mem.wf = true → t.mem = t'.mem)

/-- Rule R108: with at least 8 samples, `EMBED v` leaves frame memory and the walk as `SEQ.START` and the 8 `SEQ.PUT`
commands of its bits do, with the same accesses in the same order, and `EXTRACT` as `SEQ.START` and 8 `SEQ.GET`, whose
bits assemble to its value; only `DATA` differs. With fewer, the 8-bit commands touch nothing and the one-bit runs touch
the positions that exist and then answer `EOS`. The spec marks rule R108 as its own inference. -/
def Obligations.FrameCodecIsAWalkOfEightBits : Prop :=
  ∀ (v : Byte) (s : State), ∃ te tb ue ub : State,
    exec (.embed v) s = .next te ∧ execAll (embedBitsCommands v) s = .next tb ∧
    exec .extract s = .next ue ∧ execAll (.seqStart :: List.replicate 8 .seqGet) s = .next ub ∧
    tb.data = s.data ∧ ub.data = s.data ∧
    (8 ≤ s.sampleCount →
      te.mem = tb.mem ∧ (te.row = tb.row ∧ te.col = tb.col ∧ te.ch = tb.ch) ∧
      (eventsSince s te).filter Event.isAccess = (eventsSince s tb).filter Event.isAccess ∧
      te.data = v ∧
      ue.mem = ub.mem ∧ (ue.row = ub.row ∧ ue.col = ub.col ∧ ue.ch = ub.ch) ∧
      (eventsSince s ue).filter Event.isAccess = (eventsSince s ub).filter Event.isAccess ∧
      ∃ bits : List Bool,
        (eventsSince s ub).filter (fun e => !e.isAccess) =
          .respond 0 :: bits.map (fun b => .respond (if b then 1 else 0)) ∧
        ue.data = bits.foldl shiftIn 0) ∧
    (s.sampleCount < 8 →
      (te.mem = s.mem ∧ (eventsSince s te).filter Event.isAccess = []) ∧
      (ue.mem = s.mem ∧ (eventsSince s ue).filter Event.isAccess = []) ∧
      eventsSince s tb = .respond 0 :: bitRunEvents s.mem s.sampleCount 0 (embedBitsCommands v).tail ∧
      eventsSince s ub = .respond 0 :: bitRunEvents s.mem s.sampleCount 0 (List.replicate 8 .seqGet))

/-- Rule R109: what `EMBED` and `EXTRACT` do to frame memory and what they answer never depends on the walk, on `DATA`
or on `STATUS` as they were; both leave the walk at Bit Position 8. -/
def Obligations.FrameCodecForgetsWhatCameBefore : Prop :=
  ∀ (i : Instr) (s s' : State), (i = .extract ∨ ∃ v, i = .embed v) →
    (s'.h = s.h ∧ s'.w = s.w ∧ s'.c = s.c ∧ s'.mem = s.mem) →
    ∃ t t' : State, exec i s = .next t ∧ exec i s' = .next t' ∧
      t'.mem = t.mem ∧ eventsSince s' t' = eventsSince s t ∧ (8 ≤ s.sampleCount → t.pos = 8 ∧ t'.pos = 8)

/-- Rule R111: the answer of `EXTRACT` and the samples that `EMBED` writes depend on the samples at addresses 0 to 7
alone, and not on `H` beyond `N() >= 8`; under one `W` and `C`, the coordinates of the positions visited do not depend
on `H` either. The spec marks rule R111 as its own inference. -/
def Obligations.FrameCodecDoesNotDependOnHeight : Prop :=
  ∀ (i : Instr) (s s' : State), (i = .extract ∨ ∃ v, i = .embed v) →
    8 ≤ s.sampleCount → 8 ≤ s'.sampleCount → (∀ a, a < 8 → s'.mem.read a = s.mem.read a) →
    (∃ t t' : State, exec i s = .next t ∧ exec i s' = .next t' ∧
      t'.data = t.data ∧ t'.trace.getLast? = t.trace.getLast? ∧ (∀ a, a < 8 → t'.mem.read a = t.mem.read a)) ∧
    (s'.w = s.w → s'.c = s.c → ∀ k, k < 8 →
      let p := advance^[k] (restartWalk s)
      let p' := advance^[k] (restartWalk s')
      p'.row = p.row ∧ p'.col = p.col ∧ p'.ch = p.ch)

/-! ### Exceptions -/

/-- Rule R150: `InsufficientFrameBits` is answered by `EMBED` and by `EXTRACT`, and by nothing else, exactly when
`N() < 8`; `E_IFB` changes for no other reason. -/
def Obligations.InsufficientFrameBitsExactlyOnShortFrames : Prop :=
  ∀ (i : Instr) (s : State), ∃ t, exec i s = .next t ∧
    (t.trace.getLast? = some (.respond 0x20000000) ↔
      (i.mnemonic = .embed ∨ i.mnemonic = .extract) ∧ s.sampleCount < 8) ∧
    (t.eIfb = (s.eIfb || decide ((i.mnemonic = .embed ∨ i.mnemonic = .extract) ∧ s.sampleCount < 8))) ∧
    t.eIll = s.eIll

/-- Rule R156: the state on the response of an exception, for a whole step: a command that raises one has done
nothing but what the table of rule R156 shows (rule R157). -/
def Obligations.ExceptionEntryChangesOnlyWhatTheTableShows : Prop :=
  ∀ (s : State) (w : Word) (rest : List HostAction), s.pending = .command w :: rest →
    (∀ i, decode w = .command i → (i = .extract ∨ ∃ v, i = .embed v) → s.sampleCount < 8 →
      step s = .next { s with
        row := 0, col := 0, ch := 0, eIfb := true, pending := rest,
        trace := s.trace ++ [.command w, .respond 0x20000000] }) ∧
    (∀ why, decode w = .illegal why →
      step s = .next { s with
        eIll := true, pending := rest, trace := s.trace ++ [.command w, .respond 0x30000000] })

/-- From rule R158: the sticky bits do not alter any command: from states that differ only in them, the next states
differ only in them (`RDREG 7`, which reads them, apart). -/
def Obligations.StickyBitsGateNoCommand : Prop :=
  ∀ (i : Instr) (s : State) (x y : Bool), i ≠ .rdreg .status → ∃ t u : State,
    exec i s = .next t ∧ exec i { s with eIfb := x, eIll := y } = .next u ∧
    t = { u with eIfb := t.eIfb, eIll := t.eIll }

/-! ### Whole-machine rules -/

/-- From rules R10, R63, R64 and R186: every command in every state completes, after at most 16 accesses, and sends
exactly one response, last; bits 27:16 of the response are zero, its status is `OK`, `EOS` or `IFB`, and with a status
other than `OK` its data is 0. -/
def Obligations.EveryCommandEndsInOneResponse : Prop :=
  ∀ (i : Instr) (s : State), ∃ (t : State) (accesses : List Event) (r : Word),
    exec i s = .next t ∧ t.trace = s.trace ++ accesses ++ [.respond r] ∧
    (∀ e ∈ accesses, e.isAccess = true) ∧ accesses.length ≤ 16 ∧ t.pending = s.pending ∧
    r.extractLsb' 16 12 = 0 ∧
    (r.extractLsb' 28 4 = 0 ∨ r = 0x10000000 ∨ r = 0x20000000)

/-- Rule R44: no command reads or writes an address outside 0 to `N()` - 1, in any state; `EMBED` and `EXTRACT` access
addresses 0 to 7 only, and only when `N() >= 8`. The spec marks rule R44 as its own inference. -/
def Obligations.AccessesStayInsideTheFrame : Prop :=
  ∀ (i : Instr) (s t : State), exec i s = .next t →
    ∀ e ∈ eventsSince s t, ∀ a, e.accessAddress = some a →
      a < s.sampleCount ∧
      ((i.mnemonic = .seqGet ∨ i.mnemonic = .seqPut) ∧ a = s.pos ∨
       (i.mnemonic = .embed ∨ i.mnemonic = .extract) ∧ a ≤ 7 ∧ 8 ≤ s.sampleCount)

/-- From rule R5: no operation of the block writes bit 1 or higher of any sample: through every step that is not a
write or a load of the host, bits 7:1 of every sample stay. -/
def Obligations.BlockNeverChangesUpperBits : Prop :=
  ∀ s t : State, step s = .next t →
    (∀ a v rest, s.pending ≠ .writeSample a v :: rest) → (∀ samples rest, s.pending ≠ .loadFrame samples :: rest) →
    ∀ a, t.mem.read a &&& 0xFE = s.mem.read a &&& 0xFE

/-- From rule R11 and table T2: a register changes only through the commands the table names for it. -/
def Obligations.RegistersChangeOnlyAsTableT2Says : Prop :=
  ∀ (i : Instr) (s t : State), exec i s = .next t →
    (t.h ≠ s.h → i = .seth t.h) ∧ (t.w ≠ s.w → i = .setw t.w) ∧ (t.c ≠ s.c → i = .setc t.c) ∧
    (¬(t.row = s.row ∧ t.col = s.col ∧ t.ch = s.ch) → i.mnemonic ≠ .rdreg) ∧
    (t.data ≠ s.data → (i = .embed t.data ∨ i = .extract) ∧ 8 ≤ s.sampleCount) ∧
    (t.mem ≠ s.mem → i.mnemonic = .seqPut ∨ i.mnemonic = .embed) ∧
    (t.eIfb ≠ s.eIfb → t.eIfb = true ∧ (i.mnemonic = .embed ∨ i.mnemonic = .extract) ∧ s.sampleCount < 8) ∧
    t.eIll = s.eIll

/-! ### Invariants that every step keeps -/

/-- Every step keeps the memory in its canonical form, addresses strictly rising: the model's choice (assumption log
3). -/
def Obligations.StepKeepsMemoryCanonical : Prop :=
  ∀ s t : State, s.mem.wf = true → step s = .next t → t.mem.wf = true

/-- Every step keeps the walk in one of the three forms of rule R15, which the spec marks as its own inference. -/
def Obligations.StepKeepsWalkForm : Prop :=
  ∀ s t : State, WalkForm s → step s = .next t → WalkForm t

/-- From rule R53, with the model's trace (assumption log 2): every step keeps the trace a faithful record of frame
memory: each read, the block's or the host's, sees the latest earlier write, load or unplaced sample, and what frame
memory holds is what the trace gives. -/
def Obligations.StepKeepsTraceOfMemory : Prop :=
  ∀ s t : State, TraceGivesMemory s → step s = .next t → TraceGivesMemory t

/-- From rule R21, with the model's trace (assumption log 2): every step keeps each sticky bit the record of its error
since the latest reset. -/
def Obligations.StepKeepsStickyRecord : Prop :=
  ∀ s t : State, TraceGivesSticky s → step s = .next t → TraceGivesSticky t

/-- From rules R10, R52, R63 and R127, with the model's trace (assumption log 2): every step keeps the trace a whole
number of exchanges: the host acts only between commands, each command has exactly one response after its accesses,
and the block writes only what it has just read, but for bit 0. -/
def Obligations.StepKeepsConversation : Prop :=
  ∀ s t : State, TraceIsConversation s → step s = .next t → TraceIsConversation t

/-- The state after reset meets the five invariants. -/
def Obligations.ResetMeetsEveryInvariant : Prop :=
  State.reset.mem.wf = true ∧ WalkForm State.reset ∧ TraceGivesMemory State.reset ∧ TraceGivesSticky State.reset ∧
  TraceIsConversation State.reset

/-! ### The assembler -/

/-- From rules R62 and R70: the assembler builds a command exactly from the operands in its range, and the command
then has that mnemonic and that operand; an operand outside the range is refused, not truncated. -/
def Obligations.AssemblerRefusesOperandsOutOfRange : Prop :=
  ∀ (m : Mnemonic) (operand : Option Nat),
    (m.admits operand = false → buildCommand m operand = none) ∧
    (m.admits operand = true → ∃ i, buildCommand m operand = some i ∧ i.mnemonic = m ∧ commandOperand i = operand)

/-- From rule R70: the text form of every command, its operand in decimal, assembles to that command (assumption log
9). -/
def Obligations.TextOfACommandAssemblesToIt : Prop :=
  ∀ i : Instr, assembleText (commandText i) = .commands [i]

/-- Rule R71: each pseudo-command of table T10 expands to the sequence shown. `EMBED.BITS v` gets one response a
command and does not set `DATA`; with at least 8 samples it has the same effect on frame memory and on the walk as
`EMBED v`; with fewer it writes the positions that exist and ends in `EOS` responses. -/
def Obligations.PseudoCommandsExpandAndEmbedBitsWrites : Prop :=
  (∀ h w c : Half, Line.assemble (.setShape h.toNat w.toNat c.toNat) = .commands [.seth h, .setw w, .setc c]) ∧
  Line.assemble .rdStatus = .commands [.rdreg .status] ∧
  Line.assemble .rdData = .commands [.rdreg .data] ∧
  ∀ (v : Byte) (s : State), ∃ (is : List Instr) (t te : State),
    Line.assemble (.embedBits v.toNat) = .commands is ∧
    is = .seqStart :: [7, 6, 5, 4, 3, 2, 1, 0].map (fun k => .seqPut (v.getLsbD k)) ∧
    execAll is s = .next t ∧ exec (.embed v) s = .next te ∧
    ((eventsSince s t).filter fun e => !e.isAccess).length = is.length ∧
    t.data = s.data ∧ t.eIfb = s.eIfb ∧
    (∀ a, t.mem.read a =
      if a < 8 ∧ a < s.sampleCount then (s.mem.read a &&& 0xFE) ||| (if v.getLsbD (7 - a) then 1 else 0)
      else s.mem.read a) ∧
    (8 ≤ s.sampleCount → t.mem = te.mem ∧ t.row = te.row ∧ t.col = te.col ∧ t.ch = te.ch) ∧
    (s.sampleCount < 8 → t.trace.getLast? = some (.respond 0x10000000) ∧ te.mem = s.mem)

/-! ### The host's protocol -/

/-- From table T11, rule R72: on a configured block, `embed_byte` gives back the frame with the first 8 low bits
replaced, `extract_byte` gives the 8 low bits of a frame as a byte, and `SEQ.GET` until `EOS` collects the whole
sequence. -/
def Obligations.FunctionsOfTheSourceRunOnTheBlock : Prop :=
  ∀ (frame : Frame) (v : Byte) (s : State), frame.length = s.sampleCount →
    (8 ≤ s.sampleCount →
      (∃ written t, embedByte frame v s = (some written, t) ∧ written.length = frame.length ∧
        (∀ k x, frame[k]? = some x →
          written[k]? = some (if k < 8 then (x &&& 0xFE) ||| (if v.getLsbD (7 - k) then 1 else 0) else x))) ∧
      (∃ x t, extractByte frame s = (some x, t) ∧ ∀ k, k < 8 → x.getLsbD (7 - k) = (frame.getD k 0).getLsbD 0)) ∧
    (collectBits (frame.length + 1) (drive [.loadFrame frame, send .seqStart] s)).1 = frame.map fun x => x.getLsbD 0

/-- Rule R137: a message longer than 255 bytes, or longer than the frames of the stream less one, is rejected
with `MessageTooLong` before any frame reaches the sink or the block. -/
def Obligations.TooLongMessageIsRejectedFirst : Prop :=
  ∀ (sh : Shape) (message : List Byte) (frames : List Frame) (s : State),
    255 < message.length ∨ frames.length < message.length + 1 →
    embedMessage sh message frames s = (⟨[], some .messageTooLong⟩, s)

/-- Rules R138 and R139: every frame goes to the sink, in order: the frame at position 0 with the message's length in
its first 8 low bits, the next ones with one byte of the message each, and every later frame bit for bit as it came.
-/
def Obligations.EmbeddingForwardsEveryFrameInOrder : Prop :=
  ∀ (sh : Shape) (message : List Byte) (frames : List Frame) (s : State),
    8 ≤ sh.samples → message.length ≤ 255 → message.length + 1 ≤ frames.length → ∃ t sink,
      embedMessage sh message frames s = (⟨sink, none⟩, t) ∧ sink.length = frames.length ∧
      (∀ (p : Nat) (unit : Byte) (frame : Frame),
        (BitVec.ofNat 8 message.length :: message)[p]? = some unit → frames[p]? = some frame → ∃ written : Frame,
          sink[p]? = some written ∧ written.length = frame.length ∧
          ∀ k x, frame[k]? = some x →
            written[k]? = some (if k < 8 then (x &&& 0xFE) ||| (if unit.getLsbD (7 - k) then 1 else 0) else x)) ∧
      ∀ p, message.length < p → sink[p]? = frames[p]?

/-- From rule R141: embedding sends the shape once and then one `EMBED` for each frame that carries a unit; every frame is
placed in frame memory, and what is taken back, sample by sample, is what the sink gets. With fewer than 8 samples the first
`EMBED` is answered with an error, and embedding stops with `InsufficientFrameBits` before any frame is forwarded. -/
def Obligations.EmbeddingTakesEveryFrameThroughFrameMemory : Prop :=
  ∀ (sh : Shape) (message : List Byte) (frames : List Frame) (s : State),
    message.length ≤ 255 → message.length + 1 ≤ frames.length → ∃ r t,
      embedMessage sh message frames s = (r, t) ∧
      (8 ≤ sh.samples →
        r.error = none ∧
        (eventsSince s t).filterMap Event.commandWord =
          ([Instr.seth sh.h, .setw sh.w, .setc sh.c] ++
            (BitVec.ofNat 8 message.length :: message).map Instr.embed).map encode ∧
        (eventsSince s t).filterMap Event.placedFrame = frames ∧
        (eventsSince s t).filterMap Event.takenSample = r.sink.flatten) ∧
      (sh.samples < 8 →
        r = ⟨[], some .insufficientFrameBits⟩ ∧
        (eventsSince s t).filterMap Event.commandWord =
          [Instr.seth sh.h, .setw sh.w, .setc sh.c, .embed (BitVec.ofNat 8 message.length)].map encode ∧
        (eventsSince s t).filterMap Event.placedFrame = frames.take 1 ∧
        (eventsSince s t).filterMap Event.takenSample = [])

/-- The reader of UTF-8 accepts exactly the bytes of a text, and gives that text. What UTF-8 is the spec does not say: the
model's definition is assumption log 13. -/
def Obligations.TextIsReadFromExactlyItsBytes : Prop :=
  ∀ (bytes : List Byte) (text : List Char), readText bytes = some text ↔ textBytes text = bytes

/-- From rules R142 to R146: decoding reads a length L from the first frame and one byte from each of the next L frames, or
from as many as there are; it places those frames and no other, and sends one `EXTRACT` for each. The bytes are read as
UTF-8 (assumption log 13): `InvalidEncodedText` where they are not valid, and `TruncatedPayload` where there are fewer than
L (assumption log 10 for a buffer that is both). With fewer than 8 samples decoding stops with `InsufficientFrameBits`. -/
def Obligations.DecodingReadsTheLengthAndThenTheText : Prop :=
  ∀ (sh : Shape) (first : Frame) (rest : List Frame) (s : State), (∀ frame ∈ first :: rest, 8 ≤ frame.length) →
    ∃ (r : DecodeResult) (t : State) (unit : Frame → Byte),
      decodeMessage sh (first :: rest) s = (r, t) ∧
      (∀ frame k, k < 8 → (unit frame).getLsbD (7 - k) = (frame.getD k 0).getLsbD 0) ∧
      (eventsSince s t).filterMap Event.takenSample = [] ∧
      (8 ≤ sh.samples →
        let used := rest.take (unit first).toNat
        r = (match readText (used.map unit) with
          | none => .failed .invalidEncodedText
          | some text =>
            if rest.length < (unit first).toNat then .truncatedPayload (used.map unit) text else .message text) ∧
        (eventsSince s t).filterMap Event.placedFrame = first :: used ∧
        (eventsSince s t).filterMap Event.commandWord =
          ([Instr.seth sh.h, .setw sh.w, .setc sh.c] ++ List.replicate (used.length + 1) Instr.extract).map encode) ∧
      (sh.samples < 8 → r = .failed .insufficientFrameBits)

/-- From rule R149 (with conflict C4's bound; what UTF-8 is, assumption log 13): decoding the frames that embedding the bytes
of a text produced gives back that text. -/
def Obligations.DecodingAnEmbeddedMessageGivesItBack : Prop :=
  ∀ (sh : Shape) (text : List Char) (frames : List Frame) (s s' : State),
    8 ≤ sh.samples → (∀ frame ∈ frames, frame.length = sh.samples) →
    (textBytes text).length ≤ 255 → (textBytes text).length + 1 ≤ frames.length →
    ∃ sink, decodeEncodedText sh text frames s s' = (⟨sink, none⟩, .message text)

/-- From rule R149: decoding any frames at all, whatever they hold, gives `TruncatedPayload`, `InvalidEncodedText` or by
chance a message, and no other outcome; a truncated payload has fewer than 255 bytes and a message at most 255, and both are
the UTF-8 bytes (assumption log 13) of the text given. -/
def Obligations.DecodingArbitraryFramesHasThreeOutcomes : Prop :=
  ∀ (sh : Shape) (frames : List Frame) (s : State), 8 ≤ sh.samples →
    let r := (decodeMessage sh frames s).1
    r.allowedWithoutMessage = true ∧
    (∀ bytes text, r = .truncatedPayload bytes text → bytes.length < 255 ∧ textBytes text = bytes) ∧
    ∀ text, r = .message text → (textBytes text).length ≤ 255 ∧ (textBytes text).length + 1 ≤ frames.length
end

