-- ==== Sys2Proof/Laws/Memory.lean ====
section
/-! SUPPORT. Frame memory: what a read gives after a write and after a load, and that every operation keeps the canonical
form. -/

namespace Sys2Proof.Machine

theorem findCell_putCell (cells : List Host.Cell) (a b : Nat) (v : Byte) :
    findCell (putCell a v cells) b = if b = a then some v else findCell cells b := by
  induction cells with
  | nil => by_cases h : b = a <;> simp [putCell, findCell, h]
  | cons p rest ih =>
    obtain ⟨c, x⟩ := p
    simp only [putCell]
    split
    · simp [findCell]
    · split
      · subst_vars
        by_cases h : b = c <;> simp [findCell, h]
      · simp only [findCell, ih]
        by_cases h : b = c <;> by_cases h' : b = a <;> simp_all

/-- A read after a write: the value written at its address, what was there before at every other (rules R42, R43). -/
@[simp] theorem Memory.read_write (m : Memory) (a b : Nat) (v : Byte) :
    (m.write a v).read b = if b = a then v else m.read b := by
  simp only [Memory.read, Memory.write, findCell_putCell]
  split <;> rfl

@[simp] theorem Memory.loads_write (m : Memory) (a : Nat) (v : Byte) : (m.write a v).loads = m.loads := rfl

theorem findCell_cellsFrom (samples : List Byte) (a b : Nat) :
    findCell (cellsFrom a samples) b = if a ≤ b then samples[b - a]? else none := by
  induction samples generalizing a with
  | nil => simp [cellsFrom, findCell]
  | cons v rest ih =>
    simp only [cellsFrom, findCell, ih]
    rcases Nat.lt_trichotomy b a with h | rfl | h
    · rw [if_neg (by omega), if_neg (by omega), if_neg (by omega)]
    · simp
    · obtain ⟨k, rfl⟩ : ∃ k, b = a + 1 + k := ⟨b - (a + 1), by omega⟩
      have e : a + 1 + k - a = k + 1 := by omega
      rw [if_neg (by omega), if_pos (by omega), if_pos (by omega), e]
      simp

/-- A read after the host has placed a frame: its sample, or the free value of the new load beyond its end. -/
theorem Memory.read_load (m : Memory) (samples : List Byte) (a : Nat) :
    (m.load samples).read a = samples[a]?.getD (Config.unspecifiedSample (m.loads + 1) a) := by
  simp [Memory.read, Memory.load, findCell_cellsFrom]

theorem risingCells_cons (a : Nat) (v : Byte) (cells : List Host.Cell) :
    risingCells ((a, v) :: cells) = true ↔ (∀ p ∈ cells.head?, a < p.1) ∧ risingCells cells = true := by
  cases cells with
  | nil => simp [risingCells]
  | cons p rest => simp [risingCells]

theorem head?_putCell (a : Nat) (v : Byte) (cells : List Host.Cell) :
    ∀ p ∈ (putCell a v cells).head?, p.1 = a ∨ ∃ q ∈ cells.head?, p.1 = q.1 := by
  cases cells with
  | nil => simp [putCell]
  | cons q rest =>
    simp only [putCell]
    split
    · simp
    · split <;> simp

theorem risingCells_putCell (a : Nat) (v : Byte) (cells : List Host.Cell) (h : risingCells cells = true) :
    risingCells (putCell a v cells) = true := by
  induction cells with
  | nil => rfl
  | cons p rest ih =>
    obtain ⟨b, x⟩ := p
    have hr := (risingCells_cons b x rest).1 h
    simp only [putCell]
    split
    · exact (risingCells_cons _ _ _).2 ⟨by simpa, h⟩
    · split
      · subst_vars
        exact (risingCells_cons _ _ _).2 hr
      · refine (risingCells_cons _ _ _).2 ⟨fun p hp => ?_, ih hr.2⟩
        rcases head?_putCell a v rest p hp with e | ⟨q, hq, e⟩
        · omega
        · exact e ▸ hr.1 q hq

theorem risingCells_cellsFrom (samples : List Byte) (a : Nat) : risingCells (cellsFrom a samples) = true := by
  induction samples generalizing a with
  | nil => rfl
  | cons v rest ih =>
    refine (risingCells_cons _ _ _).2 ⟨?_, ih (a + 1)⟩
    cases rest <;> simp [cellsFrom]

/-- A write keeps the canonical form. -/
theorem Memory.wf_write (m : Memory) (a : Nat) (v : Byte) (h : m.wf = true) : (m.write a v).wf = true :=
  risingCells_putCell a v m.cells h

/-- A load gives the canonical form, whatever was there before. -/
@[simp] theorem Memory.wf_load (m : Memory) (samples : List Byte) : (m.load samples).wf = true :=
  risingCells_cellsFrom samples 0

theorem State.reset_mem_wf : State.reset.mem.wf = true := rfl

/-- Two writes at one address: the second wins, as data. -/
theorem putCell_putCell (a : Nat) (v u : Byte) (cells : List Host.Cell) :
    putCell a u (putCell a v cells) = putCell a u cells := by
  induction cells with
  | nil => simp [putCell]
  | cons p rest ih =>
    obtain ⟨b, x⟩ := p
    simp only [putCell]
    by_cases h : a < b
    · simp [h, putCell]
    · by_cases h' : a = b <;> simp [h, h', putCell, ih]

theorem risingCells_lt (a : Nat) (v : Byte) (cells : List Host.Cell) (h : risingCells ((a, v) :: cells) = true) :
    ∀ p ∈ cells, a < p.1 := by
  induction cells generalizing a v with
  | nil => simp
  | cons q rest ih =>
    obtain ⟨b, y⟩ := q
    have h' := (risingCells_cons _ _ _).1 h
    intro p hp
    rcases List.mem_cons.1 hp with rfl | hp
    · exact h'.1 _ (by simp)
    · exact Nat.lt_trans (h'.1 (b, y) (by simp)) (ih b y h'.2 p hp)

/-- In canonical form the listed samples determine the list. -/
theorem cells_ext (l l' : List Host.Cell) (h : risingCells l = true) (h' : risingCells l' = true)
    (e : ∀ a, findCell l a = findCell l' a) : l = l' := by
  induction l generalizing l' with
  | nil =>
    cases l' with
    | nil => rfl
    | cons p rest => have := e p.1; simp [findCell] at this
  | cons p rest ih =>
    obtain ⟨a, v⟩ := p
    cases l' with
    | nil => have := e a; simp [findCell] at this
    | cons q rest' =>
      obtain ⟨b, u⟩ := q
      have none_of : ∀ (cells : List Host.Cell) (k : Nat), (∀ p ∈ cells, k < p.1) → findCell cells k = none := by
        intro cells k hk
        induction cells with
        | nil => rfl
        | cons r s ihs =>
          have hr := hk r (by simp)
          have hne : k ≠ r.1 := by omega
          simp [findCell, hne, ihs fun p hp => hk p (by simp [hp])]
      have ha := risingCells_lt a v rest h
      have hb := risingCells_lt b u rest' h'
      have hab : a = b := by
        rcases Nat.lt_trichotomy a b with lt | rfl | lt
        · have e1 := e a
          have : ¬ a = b := by omega
          rw [findCell, if_pos rfl, findCell, if_neg this, none_of rest' a fun p hp => Nat.lt_trans lt (hb p hp)] at e1
          cases e1
        · rfl
        · have e1 := e b
          have : ¬ b = a := by omega
          rw [findCell, if_neg this, findCell, if_pos rfl, none_of rest b fun p hp => Nat.lt_trans lt (ha p hp)] at e1
          cases e1
      subst hab
      have hv : v = u := by simpa [findCell] using e a
      subst hv
      refine congrArg _ (ih rest' ((risingCells_cons _ _ _).1 h).2 ((risingCells_cons _ _ _).1 h').2 fun k => ?_)
      by_cases hk : k = a
      · subst hk
        rw [none_of rest k ha, none_of rest' k hb]
      · simpa [findCell, hk] using e k

end Sys2Proof.Machine
end

