-- ==== Sys2Proof/Laws/State.lean ====
section
/-! SUPPORT. What each named update of the state leaves in each field. -/

namespace Sys2Proof.Machine

variable (s : State)

@[simp] theorem State.setH_h (n : Half) : (s.setH n).h = n := rfl
@[simp] theorem State.setH_w (n : Half) : (s.setH n).w = s.w := rfl
@[simp] theorem State.setH_c (n : Half) : (s.setH n).c = s.c := rfl
@[simp] theorem State.setH_row (n : Half) : (s.setH n).row = s.row := rfl
@[simp] theorem State.setH_col (n : Half) : (s.setH n).col = s.col := rfl
@[simp] theorem State.setH_ch (n : Half) : (s.setH n).ch = s.ch := rfl
@[simp] theorem State.setH_data (n : Half) : (s.setH n).data = s.data := rfl
@[simp] theorem State.setH_eIfb (n : Half) : (s.setH n).eIfb = s.eIfb := rfl
@[simp] theorem State.setH_eIll (n : Half) : (s.setH n).eIll = s.eIll := rfl
@[simp] theorem State.setH_mem (n : Half) : (s.setH n).mem = s.mem := rfl
@[simp] theorem State.setH_pending (n : Half) : (s.setH n).pending = s.pending := rfl
@[simp] theorem State.setH_trace (n : Half) : (s.setH n).trace = s.trace := rfl

@[simp] theorem State.setW_h (n : Half) : (s.setW n).h = s.h := rfl
@[simp] theorem State.setW_w (n : Half) : (s.setW n).w = n := rfl
@[simp] theorem State.setW_c (n : Half) : (s.setW n).c = s.c := rfl
@[simp] theorem State.setW_row (n : Half) : (s.setW n).row = s.row := rfl
@[simp] theorem State.setW_col (n : Half) : (s.setW n).col = s.col := rfl
@[simp] theorem State.setW_ch (n : Half) : (s.setW n).ch = s.ch := rfl
@[simp] theorem State.setW_data (n : Half) : (s.setW n).data = s.data := rfl
@[simp] theorem State.setW_eIfb (n : Half) : (s.setW n).eIfb = s.eIfb := rfl
@[simp] theorem State.setW_eIll (n : Half) : (s.setW n).eIll = s.eIll := rfl
@[simp] theorem State.setW_mem (n : Half) : (s.setW n).mem = s.mem := rfl
@[simp] theorem State.setW_pending (n : Half) : (s.setW n).pending = s.pending := rfl
@[simp] theorem State.setW_trace (n : Half) : (s.setW n).trace = s.trace := rfl

@[simp] theorem State.setC_h (n : Half) : (s.setC n).h = s.h := rfl
@[simp] theorem State.setC_w (n : Half) : (s.setC n).w = s.w := rfl
@[simp] theorem State.setC_c (n : Half) : (s.setC n).c = n := rfl
@[simp] theorem State.setC_row (n : Half) : (s.setC n).row = s.row := rfl
@[simp] theorem State.setC_col (n : Half) : (s.setC n).col = s.col := rfl
@[simp] theorem State.setC_ch (n : Half) : (s.setC n).ch = s.ch := rfl
@[simp] theorem State.setC_data (n : Half) : (s.setC n).data = s.data := rfl
@[simp] theorem State.setC_eIfb (n : Half) : (s.setC n).eIfb = s.eIfb := rfl
@[simp] theorem State.setC_eIll (n : Half) : (s.setC n).eIll = s.eIll := rfl
@[simp] theorem State.setC_mem (n : Half) : (s.setC n).mem = s.mem := rfl
@[simp] theorem State.setC_pending (n : Half) : (s.setC n).pending = s.pending := rfl
@[simp] theorem State.setC_trace (n : Half) : (s.setC n).trace = s.trace := rfl

@[simp] theorem State.setWalk_h (r k j : Half) : (s.setWalk r k j).h = s.h := rfl
@[simp] theorem State.setWalk_w (r k j : Half) : (s.setWalk r k j).w = s.w := rfl
@[simp] theorem State.setWalk_c (r k j : Half) : (s.setWalk r k j).c = s.c := rfl
@[simp] theorem State.setWalk_row (r k j : Half) : (s.setWalk r k j).row = r := rfl
@[simp] theorem State.setWalk_col (r k j : Half) : (s.setWalk r k j).col = k := rfl
@[simp] theorem State.setWalk_ch (r k j : Half) : (s.setWalk r k j).ch = j := rfl
@[simp] theorem State.setWalk_data (r k j : Half) : (s.setWalk r k j).data = s.data := rfl
@[simp] theorem State.setWalk_eIfb (r k j : Half) : (s.setWalk r k j).eIfb = s.eIfb := rfl
@[simp] theorem State.setWalk_eIll (r k j : Half) : (s.setWalk r k j).eIll = s.eIll := rfl
@[simp] theorem State.setWalk_mem (r k j : Half) : (s.setWalk r k j).mem = s.mem := rfl
@[simp] theorem State.setWalk_pending (r k j : Half) : (s.setWalk r k j).pending = s.pending := rfl
@[simp] theorem State.setWalk_trace (r k j : Half) : (s.setWalk r k j).trace = s.trace := rfl

@[simp] theorem State.setData_h (v : Byte) : (s.setData v).h = s.h := rfl
@[simp] theorem State.setData_w (v : Byte) : (s.setData v).w = s.w := rfl
@[simp] theorem State.setData_c (v : Byte) : (s.setData v).c = s.c := rfl
@[simp] theorem State.setData_row (v : Byte) : (s.setData v).row = s.row := rfl
@[simp] theorem State.setData_col (v : Byte) : (s.setData v).col = s.col := rfl
@[simp] theorem State.setData_ch (v : Byte) : (s.setData v).ch = s.ch := rfl
@[simp] theorem State.setData_data (v : Byte) : (s.setData v).data = v := rfl
@[simp] theorem State.setData_eIfb (v : Byte) : (s.setData v).eIfb = s.eIfb := rfl
@[simp] theorem State.setData_eIll (v : Byte) : (s.setData v).eIll = s.eIll := rfl
@[simp] theorem State.setData_mem (v : Byte) : (s.setData v).mem = s.mem := rfl
@[simp] theorem State.setData_pending (v : Byte) : (s.setData v).pending = s.pending := rfl
@[simp] theorem State.setData_trace (v : Byte) : (s.setData v).trace = s.trace := rfl

@[simp] theorem State.setEIfb_h : (s.setEIfb).h = s.h := rfl
@[simp] theorem State.setEIfb_w : (s.setEIfb).w = s.w := rfl
@[simp] theorem State.setEIfb_c : (s.setEIfb).c = s.c := rfl
@[simp] theorem State.setEIfb_row : (s.setEIfb).row = s.row := rfl
@[simp] theorem State.setEIfb_col : (s.setEIfb).col = s.col := rfl
@[simp] theorem State.setEIfb_ch : (s.setEIfb).ch = s.ch := rfl
@[simp] theorem State.setEIfb_data : (s.setEIfb).data = s.data := rfl
@[simp] theorem State.setEIfb_eIfb : (s.setEIfb).eIfb = true := rfl
@[simp] theorem State.setEIfb_eIll : (s.setEIfb).eIll = s.eIll := rfl
@[simp] theorem State.setEIfb_mem : (s.setEIfb).mem = s.mem := rfl
@[simp] theorem State.setEIfb_pending : (s.setEIfb).pending = s.pending := rfl
@[simp] theorem State.setEIfb_trace : (s.setEIfb).trace = s.trace := rfl

@[simp] theorem State.setEIll_h : (s.setEIll).h = s.h := rfl
@[simp] theorem State.setEIll_w : (s.setEIll).w = s.w := rfl
@[simp] theorem State.setEIll_c : (s.setEIll).c = s.c := rfl
@[simp] theorem State.setEIll_row : (s.setEIll).row = s.row := rfl
@[simp] theorem State.setEIll_col : (s.setEIll).col = s.col := rfl
@[simp] theorem State.setEIll_ch : (s.setEIll).ch = s.ch := rfl
@[simp] theorem State.setEIll_data : (s.setEIll).data = s.data := rfl
@[simp] theorem State.setEIll_eIfb : (s.setEIll).eIfb = s.eIfb := rfl
@[simp] theorem State.setEIll_eIll : (s.setEIll).eIll = true := rfl
@[simp] theorem State.setEIll_mem : (s.setEIll).mem = s.mem := rfl
@[simp] theorem State.setEIll_pending : (s.setEIll).pending = s.pending := rfl
@[simp] theorem State.setEIll_trace : (s.setEIll).trace = s.trace := rfl

@[simp] theorem State.setMem_h (m : Memory) : (s.setMem m).h = s.h := rfl
@[simp] theorem State.setMem_w (m : Memory) : (s.setMem m).w = s.w := rfl
@[simp] theorem State.setMem_c (m : Memory) : (s.setMem m).c = s.c := rfl
@[simp] theorem State.setMem_row (m : Memory) : (s.setMem m).row = s.row := rfl
@[simp] theorem State.setMem_col (m : Memory) : (s.setMem m).col = s.col := rfl
@[simp] theorem State.setMem_ch (m : Memory) : (s.setMem m).ch = s.ch := rfl
@[simp] theorem State.setMem_data (m : Memory) : (s.setMem m).data = s.data := rfl
@[simp] theorem State.setMem_eIfb (m : Memory) : (s.setMem m).eIfb = s.eIfb := rfl
@[simp] theorem State.setMem_eIll (m : Memory) : (s.setMem m).eIll = s.eIll := rfl
@[simp] theorem State.setMem_mem (m : Memory) : (s.setMem m).mem = m := rfl
@[simp] theorem State.setMem_pending (m : Memory) : (s.setMem m).pending = s.pending := rfl
@[simp] theorem State.setMem_trace (m : Memory) : (s.setMem m).trace = s.trace := rfl

@[simp] theorem State.setPending_h (p : List HostAction) : (s.setPending p).h = s.h := rfl
@[simp] theorem State.setPending_w (p : List HostAction) : (s.setPending p).w = s.w := rfl
@[simp] theorem State.setPending_c (p : List HostAction) : (s.setPending p).c = s.c := rfl
@[simp] theorem State.setPending_row (p : List HostAction) : (s.setPending p).row = s.row := rfl
@[simp] theorem State.setPending_col (p : List HostAction) : (s.setPending p).col = s.col := rfl
@[simp] theorem State.setPending_ch (p : List HostAction) : (s.setPending p).ch = s.ch := rfl
@[simp] theorem State.setPending_data (p : List HostAction) : (s.setPending p).data = s.data := rfl
@[simp] theorem State.setPending_eIfb (p : List HostAction) : (s.setPending p).eIfb = s.eIfb := rfl
@[simp] theorem State.setPending_eIll (p : List HostAction) : (s.setPending p).eIll = s.eIll := rfl
@[simp] theorem State.setPending_mem (p : List HostAction) : (s.setPending p).mem = s.mem := rfl
@[simp] theorem State.setPending_pending (p : List HostAction) : (s.setPending p).pending = p := rfl
@[simp] theorem State.setPending_trace (p : List HostAction) : (s.setPending p).trace = s.trace := rfl

@[simp] theorem State.emit_h (e : Event) : (s.emit e).h = s.h := rfl
@[simp] theorem State.emit_w (e : Event) : (s.emit e).w = s.w := rfl
@[simp] theorem State.emit_c (e : Event) : (s.emit e).c = s.c := rfl
@[simp] theorem State.emit_row (e : Event) : (s.emit e).row = s.row := rfl
@[simp] theorem State.emit_col (e : Event) : (s.emit e).col = s.col := rfl
@[simp] theorem State.emit_ch (e : Event) : (s.emit e).ch = s.ch := rfl
@[simp] theorem State.emit_data (e : Event) : (s.emit e).data = s.data := rfl
@[simp] theorem State.emit_eIfb (e : Event) : (s.emit e).eIfb = s.eIfb := rfl
@[simp] theorem State.emit_eIll (e : Event) : (s.emit e).eIll = s.eIll := rfl
@[simp] theorem State.emit_mem (e : Event) : (s.emit e).mem = s.mem := rfl
@[simp] theorem State.emit_pending (e : Event) : (s.emit e).pending = s.pending := rfl
@[simp] theorem State.emit_trace (e : Event) : (s.emit e).trace = s.trace ++ [e] := rfl

end Sys2Proof.Machine
end

