-- ==== Sys2Proof/Laws/Ops.lean ====
section
/-! SUPPORT. For each shared operation, once, everything it can do. -/

namespace Sys2Proof.Machine

/-! ### What the computed values read -/

@[simp] theorem State.sampleCount_emit (s : State) (e : Event) : (s.emit e).sampleCount = s.sampleCount := rfl
@[simp] theorem State.sampleCount_setWalk (s : State) (r k j : Half) :
    (s.setWalk r k j).sampleCount = s.sampleCount := rfl
@[simp] theorem State.sampleCount_setMem (s : State) (m : Memory) : (s.setMem m).sampleCount = s.sampleCount := rfl
@[simp] theorem State.sampleCount_setData (s : State) (v : Byte) : (s.setData v).sampleCount = s.sampleCount := rfl
@[simp] theorem State.pos_emit (s : State) (e : Event) : (s.emit e).pos = s.pos := rfl
@[simp] theorem State.pos_setMem (s : State) (m : Memory) : (s.setMem m).pos = s.pos := rfl
@[simp] theorem State.pos_setData (s : State) (v : Byte) : (s.setData v).pos = s.pos := rfl

theorem State.exhausted_iff (s : State) : s.exhausted = true ↔ s.sampleCount ≤ s.pos := by
  simp [State.exhausted]

/-- Rule R13: the exact product is below 2^48. -/
theorem State.sampleCount_le (s : State) : s.sampleCount ≤ 65535 * 65535 * 65535 :=
  Nat.mul_le_mul (Nat.mul_le_mul (Nat.le_of_lt_succ s.h.isLt) (Nat.le_of_lt_succ s.w.isLt))
    (Nat.le_of_lt_succ s.c.isLt)

/-! ### The bit of a sample -/

theorem lsb_setLsb (sample : Byte) (b : Bool) : lsb (setLsb sample b) = b := by
  cases b <;> simp [lsb, setLsb]

theorem setLsb_setLsb (sample : Byte) (b b' : Bool) : setLsb (setLsb sample b) b' = setLsb sample b' := by
  revert sample b b'; decide

theorem setLsb_lsb (sample : Byte) : setLsb sample (lsb sample) = sample := by
  revert sample; decide

/-! ### Memory, response, exceptions -/

theorem memRead_eq (a : Nat) (s : State) : memRead a s = (s.mem.read a, s.emit (.read a (s.mem.read a))) := rfl

theorem memWrite_eq (a : Nat) (v : Byte) (s : State) :
    memWrite a v s = { s with mem := s.mem.write a v, trace := s.trace ++ [.write a v] } := rfl

theorem respond_eq (status : StatusCode) (data : Half) (s : State) :
    respond status data s = { s with trace := s.trace ++ [.respond (responseWord status data)] } := rfl

/-- Rule R156, both columns of its table. -/
theorem raiseException_eq (e : BlockException) (s : State) :
    raiseException e s =
      match e with
      | .insufficientFrameBits _ => { s with eIfb := true, trace := s.trace ++ [.respond 0x20000000] }
      | .illegalCommand => { s with eIll := true, trace := s.trace ++ [.respond 0x30000000] } := by
  cases e <;> rfl

/-! ### The walk -/

theorem restartWalk_eq (s : State) : restartWalk s = { s with row := 0, col := 0, ch := 0 } := rfl

/-- Everything `advance` can do: one of three new triples, and nothing else (rule R82). -/
theorem advance_cases (s : State) :
    (s.ch + 1 ≠ s.c ∧ advance s = s.setWalk s.row s.col (s.ch + 1)) ∨
    (s.ch + 1 = s.c ∧ s.col + 1 ≠ s.w ∧ advance s = s.setWalk s.row (s.col + 1) 0) ∨
    (s.ch + 1 = s.c ∧ s.col + 1 = s.w ∧ advance s = s.setWalk (s.row + 1) 0 0) := by
  by_cases h : s.ch + 1 = s.c
  · by_cases h' : s.col + 1 = s.w
    · exact .inr (.inr ⟨h, h', (if_pos h).trans (if_pos h')⟩)
    · exact .inr (.inl ⟨h, h', (if_pos h).trans (if_neg h')⟩)
  · exact .inl ⟨h, if_neg h⟩

/-- `advance` reads and writes the walk alone. -/
theorem advance_eq (s : State) :
    advance s = s.setWalk (advance s).row (advance s).col (advance s).ch := by
  rcases advance_cases s with ⟨-, h⟩ | ⟨-, -, h⟩ | ⟨-, -, h⟩ <;> rw [h] <;> rfl

theorem advance_emit (s : State) (e : Event) : advance (s.emit e) = (advance s).emit e := by
  rcases advance_cases s with ⟨h, r⟩ | ⟨h, h', r⟩ | ⟨h, h', r⟩ <;> rw [r]
  · exact if_neg h
  · exact (if_pos h).trans (if_neg h')
  · exact (if_pos h).trans (if_pos h')

theorem advance_setMem (s : State) (m : Memory) : advance (s.setMem m) = (advance s).setMem m := by
  rcases advance_cases s with ⟨h, r⟩ | ⟨h, h', r⟩ | ⟨h, h', r⟩ <;> rw [r]
  · exact if_neg h
  · exact (if_pos h).trans (if_neg h')
  · exact (if_pos h).trans (if_pos h')

/-- Everything `getBit` does: the low bit at the walk's position, one read, one advance (rules R83 and R104). -/
theorem getBit_eq (s : State) :
    getBit s = (lsb (s.mem.read s.pos), (advance s).emit (.read s.pos (s.mem.read s.pos))) := by
  simp [getBit, memRead_eq, advance_emit]

/-- Everything `putBit` does: the old low bit, one read, one write of the sample with bit 0 replaced, one advance (rules
R84 and R100). -/
theorem putBit_eq (b : Bool) (s : State) :
    putBit b s =
      (lsb (s.mem.read s.pos),
       (((advance s).emit (.read s.pos (s.mem.read s.pos))).setMem
          (s.mem.write s.pos (setLsb (s.mem.read s.pos) b))).emit
          (.write s.pos (setLsb (s.mem.read s.pos) b))) := by
  simp [putBit, memRead_eq, memWrite, advance_emit, advance_setMem]

/-! ### The host between commands -/

theorem takeCommand_eq (w : Word) (rest : List HostAction) (s : State) :
    takeCommand w rest s = { s with pending := rest, trace := s.trace ++ [.command w] } := rfl

theorem applyReset_eq (s : State) :
    applyReset s = { s with
      h := 0, w := 0, c := 0, row := 0, col := 0, ch := 0, data := 0, eIfb := false, eIll := false,
      trace := s.trace ++ [.reset] } := rfl

theorem hostRead_eq (a : Nat) (s : State) :
    hostRead a s = { s with trace := s.trace ++ [.hostRead a (s.mem.read a)] } := rfl

theorem hostWrite_eq (a : Nat) (v : Byte) (s : State) :
    hostWrite a v s = { s with mem := s.mem.write a v, trace := s.trace ++ [.hostWrite a v] } := rfl

theorem hostLoad_eq (samples : List Byte) (s : State) :
    hostLoad samples s = { s with mem := s.mem.load samples, trace := s.trace ++ [.hostLoad samples] } := rfl

end Sys2Proof.Machine
end

