-- ==== Sys2Proof/Laws/Exec.lean ====
section
/-! SUPPORT. The meaning of each command as one equation over the shared operations, so that no proof unfolds `exec`. -/

namespace Sys2Proof.Machine

theorem exec_seth (n : Half) (s : State) : exec (.seth n) s = .next (respond .ok 0 (restartWalk (s.setH n))) := rfl

theorem exec_setw (n : Half) (s : State) : exec (.setw n) s = .next (respond .ok 0 (restartWalk (s.setW n))) := rfl

theorem exec_setc (n : Half) (s : State) : exec (.setc n) s = .next (respond .ok 0 (restartWalk (s.setC n))) := rfl

theorem exec_rdreg (r : Reg) (s : State) : exec (.rdreg r) s = .next (respond .ok (readReg s r) s) := rfl

theorem exec_seqStart (s : State) : exec .seqStart s = .next (respond .ok 0 (restartWalk s)) := rfl

theorem exec_seqGet (s : State) :
    exec .seqGet s =
      if s.exhausted then .next (respond .eos 0 s)
      else .next (respond .ok (bitData (getBit s).1) (getBit s).2) := rfl

theorem exec_seqPut (b : Bool) (s : State) :
    exec (.seqPut b) s =
      if s.exhausted then .next (respond .eos 0 s)
      else .next (respond .ok (bitData (putBit b s).1) (putBit b s).2) := rfl

theorem exec_embed (v : Byte) (s : State) :
    exec (.embed v) s =
      if s.sampleCount < 8 then
        .next (raiseException (.insufficientFrameBits s.sampleCount) (restartWalk s))
      else .next (respond .ok 0 (putUnit v ((restartWalk s).setData v))) := rfl

theorem exec_extract (s : State) :
    exec .extract s =
      if s.sampleCount < 8 then
        .next (raiseException (.insufficientFrameBits s.sampleCount) (restartWalk s))
      else
        .next (respond .ok ((getUnit (restartWalk s)).1.setWidth 16)
          ((getUnit (restartWalk s)).2.setData (getUnit (restartWalk s)).1)) := by
  unfold exec execExtract
  simp only [restartWalk_eq]
  generalize getUnit _ = p
  rfl

end Sys2Proof.Machine
end

