-- ==== Sys2Proof/Laws/Step.lean ====
section
/-! SUPPORT. Once, everything a step can do. -/

namespace Sys2Proof.Machine

/-- Everything a step can do, by what the host does next (rules R10, R52, R170, R171). -/
theorem step_cases {s t : State} (h : step s = .next t) :
    (s.pending = [] ∧ t = s) ∨
    (∃ w rest i, s.pending = .command w :: rest ∧ decode w = .command i ∧ exec i (takeCommand w rest s) = .next t) ∨
    (∃ w rest why, s.pending = .command w :: rest ∧ decode w = .illegal why ∧
      t = raiseException .illegalCommand (takeCommand w rest s)) ∨
    (∃ rest, s.pending = .reset :: rest ∧ t = applyReset (s.setPending rest)) ∨
    (∃ a rest, s.pending = .readSample a :: rest ∧ t = hostRead a (s.setPending rest)) ∨
    (∃ a v rest, s.pending = .writeSample a v :: rest ∧ t = hostWrite a v (s.setPending rest)) ∨
    (∃ samples rest, s.pending = .loadFrame samples :: rest ∧ t = hostLoad samples (s.setPending rest)) := by
  unfold step at h
  split at h
  · next hp => cases h; exact .inl ⟨hp, rfl⟩
  · next w rest hp =>
    unfold performWord at h
    split at h
    · next i hd => exact .inr (.inl ⟨w, rest, i, hp, hd, h⟩)
    · next why hd => cases h; exact .inr (.inr (.inl ⟨w, rest, why, hp, hd, rfl⟩))
  · next rest hp => cases h; exact .inr (.inr (.inr (.inl ⟨rest, hp, rfl⟩)))
  · next a rest hp => cases h; exact .inr (.inr (.inr (.inr (.inl ⟨a, rest, hp, rfl⟩))))
  · next a v rest hp => cases h; exact .inr (.inr (.inr (.inr (.inr (.inl ⟨a, v, rest, hp, rfl⟩)))))
  · next samples rest hp => cases h; exact .inr (.inr (.inr (.inr (.inr (.inr ⟨samples, rest, hp, rfl⟩)))))

end Sys2Proof.Machine
end

