-- ==== Sys2Proof/Laws/Framer.lean ====
section
/-! SUPPORT. What the host's operations do to the block, so that no proof unfolds `drive`. -/

namespace Sys2Proof.Machine

/-- Sending a word that decodes to a command is that command's meaning, after the word has been taken. -/
theorem drive_command {w : Word} {i : Instr} {s t : State} (hd : decode w = .command i)
    (he : exec i (s.emit (.command w)) = .next t) (as : List HostAction) :
    drive (.command w :: as) s = drive as t := by
  have h : step (s.setPending (.command w :: s.pending)) = exec i (s.emit (.command w)) := by
    show performWord w (takeCommand w s.pending _) = _
    simp only [performWord, hd]
    rfl
  simp [drive, h, he]

/-- Placing a frame. -/
@[simp] theorem drive_loadFrame (samples : List Byte) (as : List HostAction) (s : State) :
    drive (.loadFrame samples :: as) s = drive as (hostLoad samples s) := rfl

/-- Reading samples shows them and changes nothing else. -/
theorem drive_readSamples (addresses : List Nat) (s : State) :
    drive (addresses.map .readSample) s =
      { s with trace := s.trace ++ addresses.map fun a => .hostRead a (s.mem.read a) } := by
  induction addresses generalizing s with
  | nil => simp [drive]
  | cons a rest ih =>
    have h : drive ((a :: rest).map .readSample) s = drive (rest.map .readSample) (hostRead a s) := rfl
    rw [h, ih]
    simp [hostRead, State.emit]

/-- Taking a frame back gives the samples at its addresses and changes nothing but the trace. -/
theorem takeFrame_eq (n : Nat) (s : State) :
    takeFrame n s =
      ((List.range n).map s.mem.read,
        { s with trace := s.trace ++ (List.range n).map fun a => .hostRead a (s.mem.read a) }) := by
  rw [takeFrame, drive_readSamples]

/-- The first samples of frame memory that has just been loaded are the frame. -/
theorem read_load_range (m : Memory) (frame : Frame) : (List.range frame.length).map (m.load frame).read = frame := by
  apply List.ext_getElem (by simp)
  intro k hk hk'
  simp [Memory.read_load, hk']

/-- A frame that carries no unit comes back as it went in. -/
@[simp] theorem passFrame_fst (frame : Frame) (s : State) : (passFrame frame s).1 = frame :=
  read_load_range s.mem frame

/-- The final step of decoding ends in one of the outcomes of rule R149. -/
theorem finishDecoding_allowed (n : Nat) (bytes : List Byte) : (finishDecoding n bytes).allowedWithoutMessage = true := by
  unfold finishDecoding
  split
  · rfl
  · split <;> rfl

end Sys2Proof.Machine
end

