-- ==== Sys2Proof/Laws/PerInstr.lean ====
section
/-! SUPPORT. Statements made for every command, one lemma per constructor of `Instr`. -/

namespace Sys2Proof.Laws

/-- The fields of a command's word: `op` is the one its row of table T9 names, `rsv` is zero, and `imm` is the operand
with zeros above it (tables T5 and T6). -/
def EncodedFields.Statement (i : Instr) : Prop :=
  rsvField (encode i) = 0 ∧
  opField (encode i) = (match i with
    | .seth _ => 0x01
    | .setw _ => 0x02
    | .setc _ => 0x03
    | .rdreg _ => 0x08
    | .seqStart => 0x10
    | .seqGet => 0x11
    | .seqPut _ => 0x12
    | .embed _ => 0x20
    | .extract => 0x21) ∧
  immField (encode i) = (match i with
    | .seth n | .setw n | .setc n => n
    | .rdreg r => r.index.setWidth 16
    | .seqPut b => if b then 1 else 0
    | .embed v => v.setWidth 16
    | .seqStart | .seqGet | .extract => 0)

theorem getLsbD_commandWord (op : BitVec 8) (imm : Half) (k : Nat) :
    (commandWord op imm).getLsbD k =
      if k < 16 then imm.getLsbD k else if k < 24 then false else op.getLsbD (k - 24) := by
  have h : ((op ++ 0#8) ++ imm).getLsbD k =
      if k < 16 then imm.getLsbD k else (op ++ 0#8).getLsbD (k - 16) := BitVec.getLsbD_append
  have h' : (op ++ 0#8).getLsbD (k - 16) =
      if k - 16 < 8 then (0#8).getLsbD (k - 16) else op.getLsbD (k - 16 - 8) := BitVec.getLsbD_append
  refine h.trans ?_
  rw [h']
  by_cases hk : k < 16
  · simp [hk]
  · by_cases hk' : k < 24
    · simp [hk, hk', show k - 16 < 8 by omega]
    · simp [hk, hk', show ¬ k - 16 < 8 by omega, show k - 16 - 8 = k - 24 by omega]

theorem opField_commandWord (op : BitVec 8) (imm : Half) : opField (commandWord op imm) = op := by
  apply BitVec.eq_of_getLsbD_eq
  intro k hk
  rw [opField, BitVec.getLsbD_extractLsb', getLsbD_commandWord]
  simp [hk, show ¬ 24 + k < 16 by omega]

theorem rsvField_commandWord (op : BitVec 8) (imm : Half) : rsvField (commandWord op imm) = 0 := by
  apply BitVec.eq_of_getLsbD_eq
  intro k hk
  rw [rsvField, BitVec.getLsbD_extractLsb', getLsbD_commandWord]
  simp [show 16 + k < 24 by omega]

theorem immField_commandWord (op : BitVec 8) (imm : Half) : immField (commandWord op imm) = imm := by
  apply BitVec.eq_of_getLsbD_eq
  intro k hk
  rw [immField, BitVec.getLsbD_extractLsb', getLsbD_commandWord]
  simp [hk]

theorem EncodedFields.seth (n : Half) : EncodedFields.Statement (.seth n) :=
  ⟨rsvField_commandWord _ _, opField_commandWord _ _, immField_commandWord _ _⟩

theorem EncodedFields.setw (n : Half) : EncodedFields.Statement (.setw n) :=
  ⟨rsvField_commandWord _ _, opField_commandWord _ _, immField_commandWord _ _⟩

theorem EncodedFields.setc (n : Half) : EncodedFields.Statement (.setc n) :=
  ⟨rsvField_commandWord _ _, opField_commandWord _ _, immField_commandWord _ _⟩

theorem EncodedFields.rdreg (r : Reg) : EncodedFields.Statement (.rdreg r) :=
  ⟨rsvField_commandWord _ _, opField_commandWord _ _, immField_commandWord _ _⟩

theorem EncodedFields.seqStart : EncodedFields.Statement .seqStart :=
  ⟨rsvField_commandWord _ _, opField_commandWord _ _, immField_commandWord _ _⟩

theorem EncodedFields.seqGet : EncodedFields.Statement .seqGet :=
  ⟨rsvField_commandWord _ _, opField_commandWord _ _, immField_commandWord _ _⟩

theorem EncodedFields.seqPut (b : Bool) : EncodedFields.Statement (.seqPut b) :=
  ⟨rsvField_commandWord _ _, opField_commandWord _ _, by
    cases b <;> exact immField_commandWord _ _⟩

theorem EncodedFields.embed (v : Byte) : EncodedFields.Statement (.embed v) :=
  ⟨rsvField_commandWord _ _, opField_commandWord _ _, immField_commandWord _ _⟩

theorem EncodedFields.extract : EncodedFields.Statement .extract :=
  ⟨rsvField_commandWord _ _, opField_commandWord _ _, immField_commandWord _ _⟩

end Sys2Proof.Laws
end

