-- ==== Sys2Proof/Laws/Utf8.lean ====
section
/-! SUPPORT. What the reader of UTF-8 does with a byte that begins a character, with a continuation byte, and with all the
bytes of one character. -/

namespace Sys2Proof.Machine

theorem byteOf_toNat {n : Nat} (h : n < 256) : (byteOf n).toNat = n := by
  rw [BitVec.toNat_ofNat]
  exact Nat.mod_eq_of_lt h

theorem charOf?_toNat {least : Nat} {c : Char} (h : least ≤ c.toNat) : charOf? least c.toNat = some c := by
  rw [charOf?, if_pos ⟨h, c.valid⟩, Char.ofNat_toNat]

/-- A byte that begins a character. -/
theorem readTextFrom_lead {n : Nat} (hn : n < 256) (acc least : Nat) (rest : List Byte) :
    readTextFrom 0 acc least (byteOf n :: rest) =
      if n < 0x80 then (readText rest).map (Char.ofNat n :: ·)
      else if n < 0xC0 then none
      else if n < 0xE0 then readTextFrom 1 (n - 0xC0) 0x80 rest
      else if n < 0xF0 then readTextFrom 2 (n - 0xE0) 0x800 rest
      else if n < 0xF8 then readTextFrom 3 (n - 0xF0) 0x10000 rest
      else none := by
  simp only [readTextFrom, readText]
  rw [byteOf_toNat hn]

/-- The last continuation byte of a character. -/
theorem readTextFrom_last {n : Nat} (hn : n < 64) {acc least : Nat} {c : Char} (hc : charOf? least (acc * 64 + n) = some c)
    (rest : List Byte) :
    readTextFrom 1 acc least (byteOf (0x80 + n) :: rest) = (readText rest).map (c :: ·) := by
  simp only [readTextFrom, readText]
  rw [byteOf_toNat (by omega), if_pos (by omega), if_pos trivial, Nat.add_sub_cancel_left, hc]

/-- A continuation byte after which others must follow. -/
theorem readTextFrom_more {n : Nat} (hn : n < 64) (more acc least : Nat) (rest : List Byte) :
    readTextFrom (more + 2) acc least (byteOf (0x80 + n) :: rest) =
      readTextFrom (more + 1) (acc * 64 + n) least rest := by
  conv_lhs => simp only [readTextFrom]
  rw [byteOf_toNat (by omega), if_pos (by omega), if_neg (by omega), Nat.add_sub_cancel_left]

/-- The bytes of one character are read as that character. -/
theorem readText_charBytes (c : Char) (rest : List Byte) :
    readText (charBytes c ++ rest) = (readText rest).map (c :: ·) := by
  have hv : c.toNat < 0xD800 ∨ 0xDFFF < c.toNat ∧ c.toNat < 0x110000 := c.valid
  have whole {least n : Nat} (h : n = c.toNat) (hl : least ≤ c.toNat) : charOf? least n = some c := h ▸ charOf?_toNat hl
  simp only [charBytes]
  split
  · rw [List.cons_append, readText, readTextFrom_lead (by omega), if_pos (by assumption), Char.ofNat_toNat]
    rfl
  split
  · simp only [List.cons_append, List.nil_append]
    rw [readText, readTextFrom_lead (by omega), if_neg (by omega), if_neg (by omega), if_pos (by omega),
      readTextFrom_last (by omega) (whole (by omega) (by omega))]
  split
  · simp only [List.cons_append, List.nil_append]
    rw [readText, readTextFrom_lead (by omega), if_neg (by omega), if_neg (by omega), if_neg (by omega), if_pos (by omega),
      readTextFrom_more (by omega), readTextFrom_last (by omega) (whole (by omega) (by omega))]
  · simp only [List.cons_append, List.nil_append]
    rw [readText, readTextFrom_lead (by omega), if_neg (by omega), if_neg (by omega), if_neg (by omega), if_neg (by omega),
      if_pos (by omega), readTextFrom_more (by omega), readTextFrom_more (by omega),
      readTextFrom_last (by omega) (whole (by omega) (by omega))]

end Sys2Proof.Machine
end

