-- ==== Sys2Proof/Tests/Slice0.lean ====
section
/-! SUPPORT. Tests on fixed values, each one step, and for each statement with hypotheses a witness that meets them. Every
expected value stands in spec/95_test_vectors.md (the vector is named) or in the encoding tables; none comes from the model. -/

namespace Sys2Proof.Tests
open Sys2Proof Sys2Proof.Machine

/-! ### Helpers -/

/-- The state a step leads to. -/
def nextOf (o : Host.Outcome State Fault Refusal) : Option State :=
  match o with
  | .next t => some t
  | _ => none

/-- A block configured as `h`×`w`×`c` whose frame memory holds these samples. -/
def configured (h w c : Half) (samples : List Byte) : State :=
  { State.reset with h := h, w := w, c := c, mem := ⟨cellsFrom 0 samples, 1⟩ }

/-- The same with the walk at a place. -/
def walkAt (row col ch : Half) (s : State) : State := s.setWalk row col ch

/-- The host's next action is this one, and no other follows. -/
def asked (a : HostAction) (s : State) : State := s.setPending [a]

/-- What one command shows and leaves: its events, the samples in frame memory, the walk, `DATA`, `STATUS`. -/
def result (i : Instr) (s : State) : Option (List Event × List Byte × List Half × Byte × Half) :=
  (nextOf (exec i s)).map fun t => (eventsSince s t, t.mem.cells.map (·.2), [t.row, t.col, t.ch], t.data, t.statusWord)

/-- The last word on the response port after one command. -/
def answer (i : Instr) (s : State) : Option Word := (nextOf (exec i s)).bind lastResponse

/-- The frame of V-S1, 2×1×3. -/
def frameS1 : State := configured 2 1 3 [0x01, 0x02, 0x03, 0xFE, 0xFF, 0x00]

/-- The frame of V-S2, 2×3×2. -/
def frameS2 : State := configured 2 3 2 [1, 0, 0, 0, 1, 1, 0, 1, 0, 0, 0, 0]

/-- The frame of V-S3, 3×1×3. -/
def frameS3 : State := configured 3 1 3 [0x00, 0xFF, 0x80, 0x7F, 0x01, 0xFE, 0x55, 0xAA, 0x33]

/-- The frame of V-E5, 2×2×2. -/
def frameE5 : State := configured 2 2 2 [0x11, 0x20, 0x31, 0x40, 0x50, 0x61, 0x70, 0x81]

/-- The frame of V-X1, 7×1×1: one sample short. -/
def frameX1 : State := configured 7 1 1 [0xFF, 0xFF, 0xFF, 0xFF, 0xFF, 0xFF, 0xFF]

/-! ### WellFormed: each check refuses what is ill-formed (V-X5) -/

theorem test_reserved_field_refused : reservedZero 0x21010000 = false ∧ wellFormedWord 0x21010000 = false := by decide

theorem test_unassigned_opcode_refused :
    [0x00000000, 0xFFFFFFFF, 0x04000000, 0x22000000].all (fun w => !opcodeAssigned w && !wellFormedWord w) = true := by
  decide

theorem test_operand_bits_refused :
    [0x08000008, 0x20000100, 0x21000001, 0x12000002, 0x11000001, 0x10000001].all
      (fun w => !operandBitsZero w && !wellFormedWord w) = true := by decide

theorem test_wellformed_words_accepted :
    [0x010001E0, 0x02000280, 0x0300FFFF, 0x08000007, 0x10000000, 0x11000000, 0x12000001, 0x200000FF, 0x21000000].all
      (fun w => wellFormedWord w && reservedZero w && opcodeAssigned w && operandBitsZero w) = true := by decide

theorem test_operand_ranges :
    Mnemonic.seth.admits (some 65536) = false ∧ Mnemonic.rdreg.admits (some 8) = false ∧
    Mnemonic.seqPut.admits (some 2) = false ∧ Mnemonic.embed.admits (some 256) = false ∧
    Mnemonic.extract.admits (some 0) = false ∧ Mnemonic.embed.admits none = false ∧
    Mnemonic.embed.admits (some 255) = true ∧ Mnemonic.extract.admits none = true := by decide

/-! ### Decode: words written out from tables T5, T6 and T9 -/

theorem test_decode_seth : decode 0x010001E0 = .command (.seth 480) := by decide
theorem test_decode_setw : decode 0x02000280 = .command (.setw 640) := by decide
theorem test_decode_setc : decode 0x0300FFFF = .command (.setc 65535) := by decide
theorem test_decode_rdreg :
    (List.range 8).map (fun i => decode (0x08000000 + BitVec.ofNat 32 i)) =
      [Reg.h, .w, .c, .row, .col, .ch, .data, .status].map fun r => .command (.rdreg r) := by decide
theorem test_decode_seqStart : decode 0x10000000 = .command .seqStart := by decide
theorem test_decode_seqGet : decode 0x11000000 = .command .seqGet := by decide
theorem test_decode_seqPut :
    decode 0x12000000 = .command (.seqPut false) ∧ decode 0x12000001 = .command (.seqPut true) := by decide
theorem test_decode_embed : decode 0x200000A5 = .command (.embed 0xA5) := by decide
theorem test_decode_extract : decode 0x21000000 = .command .extract := by decide
theorem test_decode_illegal :
    decode 0x01010004 = .illegal .reservedNotZero ∧ decode 0x00000000 = .illegal .opcodeUnassigned ∧
    decode 0x12000002 = .illegal .operandBitsNotZero := by decide

theorem test_table_word_is_decoded :
    decodeTableWord 32 0x20000068 = some (.embed 0x68) ∧ decodeTableWord 32 0x20000168 = none := by decide

theorem test_fetched_word_runs :
    (nextOf (step (State.reset.withFetchWord 32 0x0100FFFF))).map (fun t => (t.h, t.pending)) = some (0xFFFF, []) := by
  decide

/-! ### The commands -/

/-- V-C4. -/
theorem test_seth : result (.seth 65535) (walkAt 1 0 0 frameS1) =
    some ([.respond 0], [0x01, 0x02, 0x03, 0xFE, 0xFF, 0x00], [0, 0, 0], 0, 0) := by decide

/-- V-S5: the value held before, and the walk restarts. -/
theorem test_setw : result (.setw 1) (walkAt 1 0 2 frameS1) =
    some ([.respond 0], [0x01, 0x02, 0x03, 0xFE, 0xFF, 0x00], [0, 0, 0], 0, 0) := by decide

/-- V-C2: with the third extent `EXH` falls. -/
theorem test_setc : (nextOf (exec (.setc 2) (configured 2 2 0 []))).map (fun t => (t.h, t.w, t.c, t.statusWord)) =
    some (2, 2, 2, 0) := by decide

/-- V-C1. -/
theorem test_rdreg_status_after_reset : answer (.rdreg .status) State.reset = some 0x00000001 := by decide

/-- V-C3 and V-X5. -/
theorem test_rdreg : answer (.rdreg .data) { frameE5 with data := 0xFF } = some 0x000000FF ∧
    answer (.rdreg .status) { State.reset with eIfb := true, eIll := true } = some 0x00000007 ∧
    answer (.rdreg .h) (configured 480 640 3 []) = some 0x000001E0 := by decide

/-- The example of rule R80. -/
theorem test_seqStart : result .seqStart (walkAt 2 0 0 frameS1) =
    some ([.respond 0], [0x01, 0x02, 0x03, 0xFE, 0xFF, 0x00], [0, 0, 0], 0, 0) := by decide

/-- V-S1: the sixth `SEQ.GET` yields the last bit and leaves the walk at its end. -/
theorem test_seqGet : result .seqGet (walkAt 1 0 2 frameS1) =
    some ([.read 5 0x00, .respond 0], [0x01, 0x02, 0x03, 0xFE, 0xFF, 0x00], [2, 0, 0], 0, 1) := by decide

/-- V-S1: the seventh answers `EOS` and sets no sticky bit. -/
theorem test_seqGet_at_the_end : result .seqGet (walkAt 2 0 0 frameS1) =
    some ([.respond 0x10000000], [0x01, 0x02, 0x03, 0xFE, 0xFF, 0x00], [2, 0, 0], 0, 1) := by decide

/-- V-S3: the fourth `SEQ.PUT`, of a column into a row. -/
theorem test_seqPut : result (.seqPut true) (walkAt 0 0 2 frameS3) =
    some ([.read 2 0x80, .write 2 0x81, .respond 0],
      [0x00, 0xFF, 0x81, 0x7F, 0x01, 0xFE, 0x55, 0xAA, 0x33], [1, 0, 0], 0, 0) := by decide

/-- V-S4 and V-S3: the response carries the old bit. -/
theorem test_seqPut_answers_the_old_bit : answer (.seqPut true) State.reset = some 0x10000000 ∧
    answer (.seqPut false) (walkAt 1 0 0 frameS3) = some 0x00000001 := by decide

/-- `EMBED 0x69` on the frame of V-S3, and the walk of three channels a row. -/
theorem test_embed :
    (nextOf (exec (.embed 0x69) frameS3)).map
      (fun t => (t.mem.cells.map (·.2), [t.row, t.col, t.ch], t.data, t.statusWord)) =
    some ([0x00, 0xFF, 0x81, 0x7E, 0x01, 0xFE, 0x54, 0xAB, 0x33], [2, 0, 2], 0x69, 0) := by decide

/-- V-X1: seven samples are one short, whatever the walk was. -/
theorem test_embed_on_seven_samples : result (.embed 0) (walkAt 3 0 0 frameX1) =
    some ([.respond 0x20000000], [0xFF, 0xFF, 0xFF, 0xFF, 0xFF, 0xFF, 0xFF], [0, 0, 0], 0, 2) := by decide

/-- V-S2: the walk carries column into row; the first bit is the most significant. -/
theorem test_extract :
    (nextOf (exec .extract frameS2)).map (fun t => (lastResponse t, [t.row, t.col, t.ch], t.data, t.statusWord)) =
    some (some 0x0000008D, [1, 1, 0], 0x8D, 0) := by decide

/-- V-X4: the boundary. -/
theorem test_extract_boundary : answer .extract frameX1 = some 0x20000000 ∧ answer .extract frameE5 = some 0x000000A5 := by
  decide

/-- V-X5: an illegal word in the middle of a walk leaves the walk where it was. -/
theorem test_illegal_word :
    (nextOf (step (asked (.command 0) (walkAt 1 0 0 frameS1)))).map
      (fun t => (lastResponse t, [t.row, t.col, t.ch], t.statusWord)) = some (some 0x30000000, [1, 0, 0], 4) := by decide

/-- Rule R170. -/
theorem test_reset :
    (nextOf (step (asked .reset { frameS1 with eIfb := true, data := 7 }))).map
      (fun t => (t.statusWord, t.h, t.data, t.mem == frameS1.mem)) = some (1, 0, 0, true) := by decide

/-- Rule R70's listing, and an operand out of range. -/
theorem test_text : assembleText "SETW 0x280".toList = .commands [.setw 640] ∧
    assembleText "EMBED 0x68 ; a comment".toList = .commands [.embed 0x68] ∧
    assembleText "EMBED 256".toList = .error .badOperand := by decide

/-- P4: the bytes of "hi"; a character of two bytes (RFC 3629). -/
theorem test_text_read : readText [0x68, 0x69] = some ['h', 'i'] ∧ readText [0xC3, 0xA9] = some ['é'] := by decide

/-- Not UTF-8 (RFC 3629): a lone continuation, a character cut short, a form too long, a surrogate, above 0x10FFFF. -/
theorem test_text_invalid :
    [[0x80], [0xC3], [0xC0, 0x80], [0xED, 0xA0, 0x80], [0xF4, 0x90, 0x80, 0x80]].all (fun b => (readText b).isNone) = true := by
  decide

/-- Rule R141: a frame without a unit goes through frame memory and comes back. -/
theorem test_passFrame : ((passFrame [7, 9] frameS1).1, (passFrame [7, 9] frameS1).2.mem.cells,
    (passFrame [7, 9] frameS1).2.trace) =
    ([7, 9], [(0, 7), (1, 9)], [.hostLoad [7, 9], .hostRead 0 7, .hostRead 1 9]) := by decide

/-- S1 with 2×2×2 frames, on blocks in different states: three payload frames and one that passes through. -/
theorem test_decodeEncodedText :
    let frame : Frame := [0x10, 0x11, 0x12, 0x13, 0x14, 0x15, 0x16, 0x17]
    let r := decodeEncodedText ⟨2, 2, 2⟩ ['h', 'i'] (List.replicate 4 frame) State.reset frameX1
    r.1.sink[1]? = some [0x10, 0x11, 0x13, 0x12, 0x15, 0x14, 0x16, 0x16] ∧ r.1.sink[3]? = some frame ∧
    r.2 = .message ['h', 'i'] := by decide

/-- Rule R137: three bytes and three frames: one byte too many, `MessageTooLong` before any frame is written. -/
theorem test_message_too_long :
    (encodeText ⟨2, 2, 2⟩ (List.replicate 3 'h') (List.replicate 3 [0]) State.reset).1 = ⟨[], some .messageTooLong⟩ := by
  decide

/-! ### For each statement with hypotheses, values that meet them all -/

theorem witness_EncodeOfDecode : decode 0x12000001 = .command (.seqPut true) := by decide

theorem witness_IllegalWordIsRefusedAndAnswered :
    ∀ w ∈ [0x21010000, 0x04000000, 0x08000008], ∃ why rest,
      (asked (.command w) frameS1).pending = .command w :: rest ∧ decode w = .illegal why := by
  intro w hw
  simp only [List.mem_cons, List.not_mem_nil, or_false] at hw
  rcases hw with rfl | rfl | rfl
  · exact ⟨.reservedNotZero, [], rfl, by decide⟩
  · exact ⟨.opcodeUnassigned, [], rfl, by decide⟩
  · exact ⟨.operandBitsNotZero, [], rfl, by decide⟩

theorem witness_StepPerformsDecodedCommand :
    (asked (.command 0x11000000) frameS1).pending = [.command 0x11000000] ∧
    decode 0x11000000 = .command .seqGet := by decide

theorem witness_HostActsOnlyOnFrameMemory :
    State.reset.pending = [] ∧ (asked (.readSample 5) frameS1).pending = [.readSample 5] ∧
    (asked (.writeSample 0 9) frameS1).pending = [.writeSample 0 9] ∧
    (asked (.loadFrame [1, 2]) frameS1).pending = [.loadFrame [1, 2]] ∧ [(1 : Byte), 2][1]? = some 2 := by decide

theorem witness_ResetPutsEveryRegisterInItsValue : (asked .reset frameS1).pending = [.reset] := by decide

theorem witness_UnconfiguredBlockTouchesNoMemory :
    (State.reset.h = 0 ∧ State.reset.w = 0 ∧ State.reset.c = 0) ∧
    (State.reset.row = 0 ∧ State.reset.col = 0 ∧ State.reset.ch = 0) := by decide

theorem witness_OnlyResetClearsStickyBits :
    ∃ t, step (asked (.command 0x21000000) { frameS1 with eIfb := true, eIll := true }) = .next t ∧
      ∀ rest, (asked (.command 0x21000000) { frameS1 with eIfb := true, eIll := true }).pending ≠ .reset :: rest :=
  ⟨_, rfl, nofun⟩

theorem witness_RdregAnswersTheRegister : 8 ≤ (8 : Half).toNat ∧ 8 ≤ (0xFFFF : Half).toNat := by decide

/-- Within a pixel, into the next column, into the next row, and from the last position to the end. -/
theorem witness_AdvanceMovesOnePositionOn :
    ∀ s ∈ [walkAt 0 0 0 frameS2, walkAt 0 1 1 frameS2, walkAt 0 2 1 frameS2, walkAt 1 2 1 frameS2],
      WalkForm s ∧ s.exhausted = false := by decide

theorem witness_AdvanceMovesOnePositionOn_last :
    (walkAt 1 2 1 frameS2).pos + 1 = (walkAt 1 2 1 frameS2).sampleCount := by decide

theorem witness_CoordinatesOfABitPosition :
    (walkAt 0 0 0 frameS2).walkInside ∧ (walkAt 1 2 1 frameS2).walkInside ∧ 0 < frameS2.sampleCount ∧
    11 < frameS2.sampleCount := by decide

theorem witness_PositionNamesTheWalk :
    WalkForm frameS2 ∧ frameS2.walkAtStart ∧ WalkForm (walkAt 2 0 0 frameS2) ∧ (walkAt 2 0 0 frameS2).walkAtEnd ∧
    WalkForm (walkAt 1 1 0 frameS2) ∧ 0 < frameS2.sampleCount ∧
    (frameS2.h = frameS2.h ∧ frameS2.w = frameS2.w ∧ frameS2.c = frameS2.c) := by decide

/-- At the start, inside, at the end, and at the start of an empty frame. -/
theorem witness_ExhaustedExactlyAtTheEnd :
    ∀ s ∈ [frameS2, walkAt 1 2 1 frameS2, walkAt 2 0 0 frameS2, State.reset], WalkForm s := by decide

theorem witness_FirstPositionsLieInTheFirstThreePixels :
    let s := configured 1 3 3 []
    s.c = 3 ∧ 3 ≤ s.w.toNat ∧ 8 ≤ s.sampleCount ∧ 8 ≤ 8 := by decide

theorem witness_SeqGetYieldsTheBitAndMovesOn :
    (walkAt 2 0 0 frameS1).exhausted = true ∧ (walkAt 1 0 2 frameS1).exhausted = false := by decide

theorem witness_ExhaustedWalkStaysAtItsEnd :
    (walkAt 2 0 0 frameS1).exhausted = true ∧ (∀ i ∈ [Instr.seqGet, .seqPut true], isBitCommand i = true) ∧
    ((nextOf (exec .seqStart (walkAt 2 0 0 frameS1))).map fun t => t.exhausted) = some false := by decide

theorem witness_RunOfBitCommandsYieldsTheSequence :
    ∀ i ∈ [Instr.seqPut false, .seqGet, .seqPut true], isBitCommand i = true := by decide

/-- `EMBED` and `EXTRACT` on seven samples and on eight. -/
theorem witness_frame_codec_statements (v : Byte) :
    (∃ t, exec (.embed v) frameX1 = .next t) ∧ (∃ t, exec (.embed v) frameE5 = .next t) ∧
    (∃ t, exec .extract frameX1 = .next t) ∧ (∃ t, exec .extract frameE5 = .next t) ∧
    frameX1.sampleCount < 8 ∧ 8 ≤ frameE5.sampleCount :=
  ⟨⟨_, rfl⟩, ⟨_, rfl⟩, ⟨_, rfl⟩, ⟨_, rfl⟩, by decide⟩

/-- The hypotheses of `EmbedChangesAsManySamplesAsBitsDiffer`. -/
theorem witness_EmbedChangesAsManySamplesAsBitsDiffer :
    8 ≤ frameE5.sampleCount ∧ ∃ t u, exec (.embed 0) frameE5 = .next t ∧ exec .extract frameE5 = .next u :=
  ⟨by decide, _, _, rfl, rfl⟩

/-- Two frames that agree in the 8 low bits and in nothing else. -/
theorem witness_ExtractDependsOnEightLowBitsAlone :
    let s := frameE5
    let s' := configured 3 1 3 [0x01, 0x00, 0xFF, 0xFE, 0x00, 0x01, 0x00, 0x01, 0x77]
    8 ≤ s.sampleCount ∧ 8 ≤ s'.sampleCount ∧
    (∀ a, a < 8 → (s'.mem.read a).getLsbD 0 = (s.mem.read a).getLsbD 0) ∧ ∃ t, exec .extract s = .next t :=
  ⟨by decide, by decide, by decide, _, rfl⟩

/-- The frame that `EMBED` left, taken out, changed beyond address 7, and put back. -/
theorem witness_ExtractAfterEmbedAnswersTheUnit :
    8 ≤ frameE5.sampleCount ∧ ∃ t, exec (.embed 0xFF) frameE5 = .next t ∧
      (let s' := { t with mem := t.mem.write 8 0x55, row := 1, data := 3 }
       (s'.h = t.h ∧ s'.w = t.w ∧ s'.c = t.c) ∧ ∀ a, a < 8 → s'.mem.read a = t.mem.read a) :=
  ⟨by decide, _, rfl, by decide⟩

theorem witness_LastEmbedWins : frameE5.mem.wf = true := by decide

theorem witness_FrameCodecForgetsWhatCameBefore :
    let s' := { walkAt 1 1 1 frameE5 with data := 9, eIfb := true }
    (s'.h = frameE5.h ∧ s'.w = frameE5.w ∧ s'.c = frameE5.c ∧ s'.mem = frameE5.mem) ∧ 8 ≤ frameE5.sampleCount := by decide

theorem witness_FrameCodecDoesNotDependOnHeight :
    let s' := { frameE5 with h := 99 }
    8 ≤ frameE5.sampleCount ∧ 8 ≤ s'.sampleCount ∧ (∀ a, a < 8 → s'.mem.read a = frameE5.mem.read a) ∧
    s'.w = frameE5.w ∧ s'.c = frameE5.c := by decide

theorem witness_ExceptionEntryChangesOnlyWhatTheTableShows :
    (asked (.command 0x200000A5) frameX1).pending = [.command 0x200000A5] ∧
    decode 0x200000A5 = .command (.embed 0xA5) ∧ (asked (.command 0x200000A5) frameX1).sampleCount < 8 ∧
    (asked (.command 0x22000000) frameX1).pending = [.command 0x22000000] ∧
    decode 0x22000000 = .illegal .opcodeUnassigned := by decide

theorem witness_StickyBitsGateNoCommand : Instr.rdreg .data ≠ .rdreg .status ∧ Instr.extract ≠ .rdreg .status := by decide

/-- The last position of a frame, and an `EMBED` of eight samples. -/
theorem witness_AccessesStayInsideTheFrame :
    (∃ t, exec (.seqPut true) (walkAt 1 0 2 frameS1) = .next t ∧
      .write 5 1 ∈ eventsSince (walkAt 1 0 2 frameS1) t ∧ (Event.write 5 1).accessAddress = some 5) ∧
    ∃ t, exec (.embed 0) frameE5 = .next t ∧ .read 7 0x81 ∈ eventsSince frameE5 t :=
  ⟨⟨_, rfl, by decide, rfl⟩, _, rfl, by decide⟩

theorem witness_BlockNeverChangesUpperBits :
    (∃ t, step (asked (.command 0x200000A5) frameE5) = .next t) ∧
    (∀ a v rest, (asked (.command 0x200000A5) frameE5).pending ≠ .writeSample a v :: rest) ∧
    ∀ samples rest, (asked (.command 0x200000A5) frameE5).pending ≠ .loadFrame samples :: rest :=
  ⟨⟨_, rfl⟩, nofun, nofun⟩

/-- A command that changes an extent, one that changes `DATA`, and one that changes a sample. -/
theorem witness_RegistersChangeOnlyAsTableT2Says :
    (∃ t, exec (.seth 9) frameS1 = .next t ∧ t.h ≠ frameS1.h) ∧
    (∃ t, exec .extract frameE5 = .next t ∧ t.data ≠ frameE5.data) ∧
    ∃ t, exec (.seqPut false) frameS1 = .next t ∧ t.mem ≠ frameS1.mem :=
  ⟨⟨_, rfl, by decide⟩, ⟨_, rfl, by decide⟩, _, rfl, by decide⟩

/-- A state that meets the five invariants and steps: the host has loaded a frame, set its shape and embedded a unit, and
sends `EXTRACT`. -/
def running : State :=
  asked (.command 0x21000000) (drive
    [.loadFrame [0x11, 0x20, 0x31, 0x40, 0x50, 0x61, 0x70, 0x81], .command 0x01000002, .command 0x02000002,
     .command 0x03000002, .command 0x20000068, .readSample 2, .command 0] State.reset)

theorem witness_invariants :
    running.mem.wf = true ∧ WalkForm running ∧ running.walkAtEnd ∧ TraceGivesMemory running ∧
    TraceGivesSticky running ∧ TraceIsConversation running ∧ running.eIll = true := by decide

theorem witness_invariants_step : ∃ t, step running = .next t := ⟨_, rfl⟩

theorem witness_AssemblerRefusesOperandsOutOfRange :
    Mnemonic.embed.admits (some 256) = false ∧ Mnemonic.embed.admits (some 255) = true ∧
    Mnemonic.extract.admits none = true := by decide

theorem witness_PseudoCommandsExpandAndEmbedBitsWrites : 8 ≤ frameE5.sampleCount ∧ frameX1.sampleCount < 8 := by decide

theorem witness_FunctionsOfTheSourceRunOnTheBlock :
    [(0x11 : Byte), 0x20, 0x31, 0x40, 0x50, 0x61, 0x70, 0x81].length = frameE5.sampleCount ∧
    8 ≤ frameE5.sampleCount := by decide

/-- A message of 256 bytes; a message of two bytes and two frames; no frame at all. -/
theorem witness_TooLongMessageIsRejectedFirst :
    255 < (List.replicate 256 (0x68 : Byte)).length ∧
    (List.replicate 2 (List.replicate 8 (0 : Byte))).length < [(0x68 : Byte), 0x69].length + 1 ∧
    ([] : List Frame).length < ([] : List Byte).length + 1 := by
  rw [List.length_replicate]; decide

/-- The longest message, and the fewest frames that hold a message. -/
theorem witness_EmbeddingForwardsEveryFrameInOrder :
    8 ≤ (Shape.mk 2 2 2).samples ∧ (List.replicate 255 (0x68 : Byte)).length ≤ 255 ∧
    [(0x68 : Byte), 0x69].length + 1 ≤ (List.replicate 3 (List.replicate 8 (0 : Byte))).length ∧
    (BitVec.ofNat 8 2 :: [(0x68 : Byte), 0x69])[2]? = some 0x69 := by
  rw [List.length_replicate]; decide

/-- Frames large enough, and frames one sample short. -/
theorem witness_EmbeddingTakesEveryFrameThroughFrameMemory :
    [(0x68 : Byte), 0x69].length ≤ 255 ∧
    [(0x68 : Byte), 0x69].length + 1 ≤ (List.replicate 3 (List.replicate 8 (0 : Byte))).length ∧
    8 ≤ (Shape.mk 2 2 2).samples ∧ (Shape.mk 7 1 1).samples < 8 := by decide

theorem witness_DecodingReadsTheLengthAndThenTheText :
    (∀ frame ∈ List.replicate 3 (List.replicate 8 (0 : Byte)), 8 ≤ frame.length) ∧
    8 ≤ (Shape.mk 2 2 2).samples ∧ (Shape.mk 7 1 1).samples < 8 := by decide

theorem witness_DecodingAnEmbeddedMessageGivesItBack :
    8 ≤ (Shape.mk 2 2 2).samples ∧
    (∀ frame ∈ List.replicate 3 (List.replicate 8 (0 : Byte)), frame.length = (Shape.mk 2 2 2).samples) ∧
    (textBytes ['h', 'i']).length ≤ 255 ∧
    (textBytes ['h', 'i']).length + 1 ≤ (List.replicate 3 (List.replicate 8 (0 : Byte))).length := by decide

theorem witness_DecodingArbitraryFramesHasThreeOutcomes : 8 ≤ (Shape.mk 1 1 8).samples := by decide

end Sys2Proof.Tests
end

section
/-! SUPPORT. The registers: the walk read as the mixed-radix numeral of its Bit Position (rules R16 and R17), the walk
placed at a given Bit Position, and what reset leaves in every register (rule R30). -/

namespace Sys2Proof.Machine

/-! ### The digits of a Bit Position -/

/-- The channel is the lowest digit of `POS()`. -/
theorem State.pos_mod_c {s : State} (hch : s.ch.toNat < s.c.toNat) : s.pos % s.c.toNat = s.ch.toNat :=
  Nat.mul_add_mod_of_lt hch

/-- Without its channel digit `POS()` counts the pixels before the walk. -/
theorem State.pos_div_c {s : State} (hch : s.ch.toNat < s.c.toNat) :
    s.pos / s.c.toNat = s.row.toNat * s.w.toNat + s.col.toNat := by
  have hc : 0 < s.c.toNat := Nat.zero_lt_of_lt hch
  rw [State.pos, Nat.mul_comm, Nat.mul_add_div hc, Nat.div_eq_of_lt hch, Nat.add_zero]

/-- The column is the middle digit. -/
theorem State.pos_div_c_mod_w {s : State} (hcol : s.col.toNat < s.w.toNat) (hch : s.ch.toNat < s.c.toNat) :
    s.pos / s.c.toNat % s.w.toNat = s.col.toNat := by
  rw [State.pos_div_c hch, Nat.mul_add_mod_of_lt hcol]

/-- The row is the highest digit. -/
theorem State.pos_div_w_mul_c {s : State} (hcol : s.col.toNat < s.w.toNat) (hch : s.ch.toNat < s.c.toNat) :
    s.pos / (s.w.toNat * s.c.toNat) = s.row.toNat := by
  have hw : 0 < s.w.toNat := Nat.zero_lt_of_lt hcol
  calc s.pos / (s.w.toNat * s.c.toNat)
      = s.pos / s.c.toNat / s.w.toNat := by rw [Nat.div_div_eq_div_mul, Nat.mul_comm]
    _ = (s.w.toNat * s.row.toNat + s.col.toNat) / s.w.toNat := by rw [State.pos_div_c hch, Nat.mul_comm]
    _ = s.row.toNat := by rw [Nat.mul_add_div hw, Nat.div_eq_of_lt hcol, Nat.add_zero]

/-- An inside walk has not reached the end: its highest digit is below `H`. -/
theorem State.walkInside.pos_lt {s : State} (hin : s.walkInside) : s.pos < s.sampleCount := by
  obtain ⟨hrow, hcol, hch⟩ := hin
  have hpixel : 0 < s.w.toNat * s.c.toNat := Nat.mul_pos (Nat.zero_lt_of_lt hcol) (Nat.zero_lt_of_lt hch)
  rw [State.sampleCount, Nat.mul_assoc, ← Nat.div_lt_iff_lt_mul hpixel, State.pos_div_w_mul_c hcol hch]
  exact hrow

/-! ### The walk at a given Bit Position -/

/-- The state with its walk at the coordinates that rule R16 gives for Bit Position `k`. -/
def State.placeWalk (s : State) (k : Nat) : State :=
  s.setWalk (BitVec.ofNat 16 (k / (s.w.toNat * s.c.toNat))) (BitVec.ofNat 16 (k / s.c.toNat % s.w.toNat))
    (BitVec.ofNat 16 (k % s.c.toNat))

@[simp] theorem State.placeWalk_w (s : State) (k : Nat) : (s.placeWalk k).w = s.w := rfl
@[simp] theorem State.placeWalk_c (s : State) (k : Nat) : (s.placeWalk k).c = s.c := rfl

/-- A number below some 16-bit value is kept whole by a 16-bit register. -/
theorem toNat_ofNat_of_lt_toNat {n : Nat} {x : Half} (h : n < x.toNat) : (BitVec.ofNat 16 n).toNat = n :=
  (BitVec.toNat_ofNat n 16).trans (Nat.mod_eq_of_lt (h.trans x.isLt))

/-- Below `N()` no extent is zero. -/
theorem State.extents_pos {s : State} (h : 0 < s.sampleCount) :
    0 < s.h.toNat ∧ 0 < s.w.toNat ∧ 0 < s.c.toNat := by
  have hhw := Nat.pos_of_mul_pos_right h
  exact ⟨Nat.pos_of_mul_pos_right hhw, Nat.pos_of_mul_pos_left hhw, Nat.pos_of_mul_pos_left h⟩

/-- The three coordinates of rule R16 lie below the three extents. -/
theorem State.coordinates_lt {s : State} {k : Nat} (hk : k < s.sampleCount) :
    k / (s.w.toNat * s.c.toNat) < s.h.toNat ∧ k / s.c.toNat % s.w.toNat < s.w.toNat ∧
    k % s.c.toNat < s.c.toNat := by
  obtain ⟨-, hw, hc⟩ := State.extents_pos (Nat.zero_lt_of_lt hk)
  refine ⟨?_, Nat.mod_lt _ hw, Nat.mod_lt _ hc⟩
  rw [Nat.div_lt_iff_lt_mul (Nat.mul_pos hw hc), ← Nat.mul_assoc]
  exact hk

section
variable {s : State} {k : Nat} (hk : k < s.sampleCount)
include hk

theorem State.placeWalk_row : (s.placeWalk k).row.toNat = k / (s.w.toNat * s.c.toNat) :=
  have ⟨hrow, _, _⟩ := State.coordinates_lt hk
  toNat_ofNat_of_lt_toNat hrow

theorem State.placeWalk_col : (s.placeWalk k).col.toNat = k / s.c.toNat % s.w.toNat :=
  have ⟨_, hcol, _⟩ := State.coordinates_lt hk
  toNat_ofNat_of_lt_toNat hcol

theorem State.placeWalk_ch : (s.placeWalk k).ch.toNat = k % s.c.toNat :=
  have ⟨_, _, hch⟩ := State.coordinates_lt hk
  toNat_ofNat_of_lt_toNat hch

theorem State.placeWalk_walkInside : (s.placeWalk k).walkInside := by
  rw [State.walkInside, State.placeWalk_row hk, State.placeWalk_col hk, State.placeWalk_ch hk]
  exact State.coordinates_lt hk

/-- The digits put together again give `k`: twice the division theorem. -/
theorem State.placeWalk_pos : (s.placeWalk k).pos = k := by
  rw [State.pos, State.placeWalk_row hk, State.placeWalk_col hk, State.placeWalk_ch hk, State.placeWalk_w,
    State.placeWalk_c, Nat.mul_comm s.w.toNat, ← Nat.div_div_eq_div_mul, Nat.div_add_mod', Nat.div_add_mod']

end

/-- Settles O15: an inside walk is the numeral of its position, and `placeWalk` writes the numeral of any position. -/
theorem coordinatesOfABitPosition : Obligations.CoordinatesOfABitPosition := by
  constructor
  · intro s hin
    have ⟨_, hcol, hch⟩ := hin
    exact ⟨State.walkInside.pos_lt hin, (State.pos_div_w_mul_c hcol hch).symm,
      (State.pos_div_c_mod_w hcol hch).symm, (State.pos_mod_c hch).symm⟩
  · intro s k hk
    exact ⟨s.placeWalk k, rfl, State.placeWalk_walkInside hk, State.placeWalk_pos hk,
      State.placeWalk_row hk, State.placeWalk_col hk, State.placeWalk_ch hk⟩

/-! ### Reset -/

/-- Table T3: `STATUS` reads 0x0001 because the empty walk of the empty shape is exhausted. -/
theorem readReg_reset (r : Reg) : readReg State.reset r = if r = .status then 1 else 0 := by
  cases r <;> decide

/-- What `RDREG` can read after a reset does not depend on the state before it. -/
theorem readReg_applyReset (s : State) (r : Reg) : readReg (applyReset s) r = readReg State.reset r := by
  cases r <;> rfl

/-- Rule R170: a reset that the host applies next is the whole of the step. -/
theorem step_of_pending_reset {s : State} {rest : List HostAction} (h : s.pending = .reset :: rest) :
    step s = .next (applyReset (s.setPending rest)) := by
  simp [step, h]

/-- Settles O8: a reset step is `applyReset`, and every register then reads as in `State.reset`. -/
theorem resetPutsEveryRegisterInItsValue : Obligations.ResetPutsEveryRegisterInItsValue := by
  refine ⟨readReg_reset, fun s rest hreset => ⟨_, step_of_pending_reset hreset, fun r => ?_, ?_⟩⟩
  · rw [readReg_applyReset, readReg_reset]
  · simp [applyReset_eq]

/-! ### The number of samples -/

/-- Settles O13: each extent is at most 65535, so the product is at most 65535^3. -/
theorem sampleCountIsExactBelowTwoTo48 : Obligations.SampleCountIsExactBelowTwoTo48 := by
  intro s
  have hle : s.sampleCount ≤ 281462092005375 := s.sampleCount_le
  exact ⟨rfl, hle, by omega⟩

end Sys2Proof.Machine
end

section
/-! SUPPORT. The encoding: a command word read field by field, which turns a row of table T9 (rule R65), the three
checks of rule R67 and the decoder (rule R66) into statements about `op`, `rsv` and `imm`. -/

namespace Sys2Proof

/-! ### The fields of a word -/

/-- Bits 31:24, 23:16 and 15:0 are the whole word (table T5). -/
theorem word_eq_iff_fields (w w' : Word) :
    w = w' ↔ opField w = opField w' ∧ rsvField w = rsvField w' ∧ immField w = immField w' := by
  refine ⟨fun h => h ▸ ⟨rfl, rfl, rfl⟩, fun ⟨hop, hrsv, himm⟩ => BitVec.eq_of_getLsbD_eq fun k hk => ?_⟩
  by_cases h16 : k < 16
  · simpa [immField, h16] using congrArg (·.getLsbD k) himm
  · by_cases h24 : k < 24
    · have hbit := congrArg (·.getLsbD (k - 16)) hrsv
      simpa [rsvField, show k - 16 < 8 by omega, show 16 + (k - 16) = k by omega] using hbit
    · have hbit := congrArg (·.getLsbD (k - 24)) hop
      simpa [opField, show k - 24 < 8 by omega, show 24 + (k - 24) = k by omega] using hbit

theorem opField_and (w w' : Word) : opField (w &&& w') = opField w &&& opField w' := BitVec.extractLsb'_and

theorem rsvField_and (w w' : Word) : rsvField (w &&& w') = rsvField w &&& rsvField w' := BitVec.extractLsb'_and

theorem immField_and (w w' : Word) : immField (w &&& w') = immField w &&& immField w' := BitVec.extractLsb'_and

/-- A masked comparison of words is one of each field. -/
theorem and_eq_iff_fields (w mask bits : Word) :
    w &&& mask = bits ↔
      opField w &&& opField mask = opField bits ∧ rsvField w &&& rsvField mask = rsvField bits ∧
      immField w &&& immField mask = immField bits := by
  rw [word_eq_iff_fields, opField_and, rsvField_and, immField_and]

theorem and_allBits (x : BitVec 8) : x &&& 255#8 = x := BitVec.and_allOnes

/-- The bits of `x` from `k` on are zero exactly when the mask of those bits finds none. -/
theorem and_highMask_eq_zero_iff {n : Nat} (x : BitVec n) (k : Nat) :
    x &&& (BitVec.allOnes n <<< k) = 0 ↔ x.extractLsb' k (n - k) = 0 := by
  constructor <;> intro h <;> apply BitVec.eq_of_getLsbD_eq <;> intro i hi
  · have hbit := congrArg (·.getLsbD (k + i)) h
    simpa [hi, show k + i < n by omega] using hbit
  · by_cases hik : i < k
    · simp [hik]
    · have hbit := congrArg (·.getLsbD (i - k)) h
      simpa [hi, hik, show i - k < n - k by omega, show k + (i - k) = i by omega] using hbit

/-! ### The rows of table T9 -/

/-- The operation code of a mnemonic (table T6). -/
def Mnemonic.op : Mnemonic → BitVec 8
  | .seth => 0x01
  | .setw => 0x02
  | .setc => 0x03
  | .rdreg => 0x08
  | .seqStart => 0x10
  | .seqGet => 0x11
  | .seqPut => 0x12
  | .embed => 0x20
  | .extract => 0x21

/-- The `imm` bits that must be zero for a mnemonic (table T6). -/
def Mnemonic.zeroMask : Mnemonic → Half
  | .seth | .setw | .setc => 0
  | .rdreg => 0xFFF8
  | .seqPut => 0xFFFE
  | .embed => 0xFF00
  | .seqStart | .seqGet | .extract => 0xFFFF

/-- The row of a mnemonic in table T9, from its entries in table T6. -/
def Mnemonic.row (m : Mnemonic) : OpcodeRow := ⟨m, commandWord m.op 0, 0xFFFF#16 ++ m.zeroMask⟩

theorem Mnemonic.mem_allMnemonics (m : Mnemonic) : m ∈ Machine.allMnemonics := by
  cases m <;> decide

/-- Tables T6 and T9 agree. -/
theorem opcodeTable_eq_map_row : opcodeTable = Machine.allMnemonics.map Mnemonic.row := by decide

theorem mem_opcodeTable_iff {r : OpcodeRow} : r ∈ opcodeTable ↔ ∃ m : Mnemonic, m.row = r := by
  simp [opcodeTable_eq_map_row, Mnemonic.mem_allMnemonics]

theorem Mnemonic.op_injective {m m' : Mnemonic} (h : m.op = m'.op) : m = m' := by
  have hall : ∀ m ∈ Machine.allMnemonics, ∀ m' ∈ Machine.allMnemonics, m.op = m'.op → m = m' := by decide
  exact hall m m.mem_allMnemonics m' m'.mem_allMnemonics h

/-- The word is a command of this mnemonic, said of its fields. -/
def Mnemonic.Fits (m : Mnemonic) (w : Word) : Prop :=
  rsvField w = 0 ∧ opField w = m.op ∧ immField w &&& m.zeroMask = 0

theorem Mnemonic.Fits.unique {m m' : Mnemonic} {w : Word} (h : m.Fits w) (h' : m'.Fits w) : m = m' := by
  obtain ⟨-, hop, -⟩ := h
  obtain ⟨-, hop', -⟩ := h'
  exact Mnemonic.op_injective (hop.symm.trans hop')

theorem Mnemonic.fields_bits (m : Mnemonic) :
    opField m.row.bits = m.op ∧ rsvField m.row.bits = 0#8 ∧ immField m.row.bits = 0#16 :=
  ⟨Laws.opField_commandWord _ _, Laws.rsvField_commandWord _ _, Laws.immField_commandWord _ _⟩

theorem Mnemonic.fields_mask (m : Mnemonic) :
    opField m.row.mask = 255#8 ∧ rsvField m.row.mask = 255#8 ∧ immField m.row.mask = m.zeroMask := by
  cases m <;> decide

/-- Rule R65 on fields: mask and match pin `op` and `rsv` and see the operand bits that must be zero. -/
theorem Mnemonic.accepts_row_iff (m : Mnemonic) (w : Word) : m.row.accepts w = true ↔ m.Fits w := by
  rw [OpcodeRow.accepts, beq_iff_eq, and_eq_iff_fields]
  simp only [m.fields_bits, m.fields_mask, and_allBits]
  exact and_left_comm

/-! ### The checks of rule R67 -/

theorem reservedZero_iff (w : Word) : reservedZero w = true ↔ rsvField w = 0#8 := by
  have hmask : opField 0x00FF0000 = 0#8 ∧ rsvField 0x00FF0000 = 255#8 ∧ immField 0x00FF0000 = 0#16 := by decide
  have hzero : opField 0 = 0#8 ∧ rsvField 0 = 0#8 ∧ immField 0 = 0#16 := by decide
  rw [reservedZero, beq_iff_eq, and_eq_iff_fields]
  simp only [hmask, hzero, and_allBits, BitVec.and_zero, true_and, and_true]

theorem opMask_eq_bits_iff (m : Mnemonic) (w : Word) : w &&& 0xFF000000 = m.row.bits ↔ opField w = m.op := by
  have hmask : opField 0xFF000000 = 255#8 ∧ rsvField 0xFF000000 = 0#8 ∧ immField 0xFF000000 = 0#16 := by decide
  rw [and_eq_iff_fields]
  simp only [hmask, m.fields_bits, and_allBits, BitVec.and_zero, and_true]

theorem opcodeAssigned_iff (w : Word) : opcodeAssigned w = true ↔ ∃ m : Mnemonic, opField w = m.op := by
  simp only [← opMask_eq_bits_iff]
  simp [opcodeAssigned, opcodeTable_eq_map_row, Mnemonic.mem_allMnemonics]

theorem immMask_eq_zero_iff (m : Mnemonic) (w : Word) :
    w &&& 0x0000FFFF &&& m.row.mask = 0 ↔ immField w &&& m.zeroMask = 0#16 := by
  have hlow : opField 0x0000FFFF = 0#8 ∧ rsvField 0x0000FFFF = 0#8 ∧ immField 0x0000FFFF = BitVec.allOnes 16 := by
    decide
  have hzero : opField 0 = 0#8 ∧ rsvField 0 = 0#8 ∧ immField 0 = 0#16 := by decide
  rw [and_eq_iff_fields]
  simp only [opField_and, rsvField_and, immField_and, hlow, hzero, m.fields_mask, BitVec.and_zero,
    BitVec.zero_and, BitVec.and_allOnes, true_and]

theorem operandBitsZero_iff (w : Word) :
    operandBitsZero w = true ↔ ∀ m : Mnemonic, opField w = m.op → immField w &&& m.zeroMask = 0#16 := by
  simp only [← opMask_eq_bits_iff, ← immMask_eq_zero_iff]
  simp [operandBitsZero, opcodeTable_eq_map_row, Mnemonic.mem_allMnemonics, ← imp_iff_not_or]

/-- The three checks together leave exactly the words of some mnemonic. -/
theorem checks_iff_fits (w : Word) :
    (reservedZero w = true ∧ opcodeAssigned w = true ∧ operandBitsZero w = true) ↔ ∃ m : Mnemonic, m.Fits w := by
  rw [reservedZero_iff, opcodeAssigned_iff, operandBitsZero_iff]
  constructor
  · rintro ⟨hrsv, ⟨m, hop⟩, himm⟩
    exact ⟨m, hrsv, hop, himm m hop⟩
  · rintro ⟨m, hrsv, hop, himm⟩
    exact ⟨hrsv, ⟨m, hop⟩, fun m' hop' => Mnemonic.op_injective (hop.symm.trans hop') ▸ himm⟩

/-! ### The decoder -/

/-- A word that decodes to a command fits its mnemonic: one case per line of rule R66 that answers a command. -/
theorem fits_of_decode {w : Word} {i : Instr} (h : decode w = .command i) : i.mnemonic.Fits w := by
  simp only [decode, ite_eq_iff, Decoded.command.injEq, reduceCtorEq, and_false, or_false, false_or, not_not] at h
  obtain ⟨hrsv, h⟩ := h
  rcases h with ⟨hop, rfl⟩ | ⟨-, ⟨hop, rfl⟩ | ⟨-, ⟨hop, rfl⟩ | ⟨-, ⟨hop, rfl⟩ | ⟨-, ⟨hop, rfl⟩ | ⟨-, ⟨hop, rfl⟩ |
    ⟨-, ⟨hop, rfl⟩ | ⟨-, ⟨hop, rfl⟩ | ⟨-, hop, rfl⟩⟩⟩⟩⟩⟩⟩⟩ <;> refine ⟨hrsv, ?_⟩
  · exact ⟨hop, BitVec.and_zero⟩
  · exact ⟨hop, BitVec.and_zero⟩
  · exact ⟨hop, BitVec.and_zero⟩
  · exact hop.imp_right (and_highMask_eq_zero_iff (immField w) 3).mpr
  · exact hop.imp_right (BitVec.and_allOnes.trans ·)
  · exact hop.imp_right (BitVec.and_allOnes.trans ·)
  · exact hop.imp_right (and_highMask_eq_zero_iff (immField w) 1).mpr
  · exact hop.imp_right (and_highMask_eq_zero_iff (immField w) 8).mpr
  · exact hop.imp_right (BitVec.and_allOnes.trans ·)

/-- A word that fits a mnemonic decodes to a command of it. -/
theorem decode_of_fits {m : Mnemonic} {w : Word} (h : m.Fits w) : ∃ i, decode w = .command i ∧ i.mnemonic = m := by
  obtain ⟨hrsv, hop, himm⟩ := h
  cases m with
  | seth | setw | setc => simp [decode, hrsv, hop, Mnemonic.op, Instr.mnemonic]
  | rdreg =>
    simp [decode, hrsv, hop, Mnemonic.op, Instr.mnemonic, (and_highMask_eq_zero_iff (immField w) 3).mp himm]
  | seqStart | seqGet | extract =>
    have himm0 : immField w = 0 := BitVec.and_allOnes.symm.trans himm
    simp [decode, hrsv, hop, Mnemonic.op, Instr.mnemonic, himm0]
  | seqPut =>
    simp [decode, hrsv, hop, Mnemonic.op, Instr.mnemonic, (and_highMask_eq_zero_iff (immField w) 1).mp himm]
  | embed =>
    simp [decode, hrsv, hop, Mnemonic.op, Instr.mnemonic, (and_highMask_eq_zero_iff (immField w) 8).mp himm]

theorem decode_command_iff_fits (w : Word) (m : Mnemonic) :
    (∃ i, decode w = .command i ∧ i.mnemonic = m) ↔ m.Fits w :=
  ⟨fun ⟨_, hd, hm⟩ => hm ▸ fits_of_decode hd, decode_of_fits⟩

/-- Illegal is what is no command. -/
theorem decode_illegal_iff (w : Word) : (∃ why, decode w = .illegal why) ↔ ¬ ∃ m : Mnemonic, m.Fits w := by
  simp only [← decode_command_iff_fits]
  cases decode w <;> simp

/-- Settles O3: on fields, a row accepts the words that fit its mnemonic, and the operation code names the row. -/
theorem wordIsTheCommandOfItsRow : Obligations.WordIsTheCommandOfItsRow := by
  refine ⟨rfl, fun w m => ?_, fun w r hr r' hr' h h' => ?_⟩
  · rw [decode_command_iff_fits, ← m.accepts_row_iff]
    constructor
    · exact fun h => ⟨m.row, mem_opcodeTable_iff.mpr ⟨m, rfl⟩, rfl, h⟩
    · rintro ⟨r, hr, rfl, h⟩
      obtain ⟨m, rfl⟩ := mem_opcodeTable_iff.mp hr
      exact h
  · obtain ⟨m, rfl⟩ := mem_opcodeTable_iff.mp hr
    obtain ⟨m', rfl⟩ := mem_opcodeTable_iff.mp hr'
    rw [((m.accepts_row_iff w).mp h).unique ((m'.accepts_row_iff w).mp h')]

/-- Rules R67 and R152: the word is taken from the port and the exception raised. -/
theorem Machine.step_of_illegal {s : Machine.State} {w : Word} {rest : List Machine.HostAction} {why : Illegal}
    (hp : s.pending = .command w :: rest) (hd : decode w = .illegal why) :
    Machine.step s = .next (Machine.raiseException .illegalCommand (Machine.takeCommand w rest s)) := by
  simp [Machine.step, Machine.performWord, hp, hd]

/-- Settles O5: a word is illegal exactly when it fits no mnemonic, that is when one of the three checks fails. -/
theorem illegalWordIsRefusedAndAnswered : Obligations.IllegalWordIsRefusedAndAnswered := by
  refine fun w => ⟨?_, fun s rest why hp hd => ?_⟩
  · rw [decode_illegal_iff, ← checks_iff_fits, not_and_or, not_and_or]
    simp only [Bool.not_eq_true]
  · rw [Machine.step_of_illegal hp hd, Machine.raiseException_eq, Machine.takeCommand_eq]
    simp

end Sys2Proof
end

section
/-! SUPPORT. The walk and the one-bit commands: `advance` takes the walk from one Bit Position to the next (rule R82), so
a run of `SEQ.GET` and `SEQ.PUT` is a walk placed position after position (rules R81 and R85), and `EMBED` is the same
walk with one response (rules R71 and R108). -/

namespace Sys2Proof.Machine

/-! ### Advancing the placed walk -/

/-- `placeWalk` reads the shape alone and overwrites the walk. -/
@[simp] theorem State.placeWalk_setWalk (s : State) (r q p : Half) (k : Nat) :
    (s.setWalk r q p).placeWalk k = s.placeWalk k := rfl

@[simp] theorem State.placeWalk_placeWalk (s : State) (j k : Nat) : (s.placeWalk j).placeWalk k = s.placeWalk k := rfl

@[simp] theorem State.placeWalk_sampleCount (s : State) (k : Nat) : (s.placeWalk k).sampleCount = s.sampleCount := rfl

@[simp] theorem State.placeWalk_mem (s : State) (k : Nat) : (s.placeWalk k).mem = s.mem := rfl

/-- Beginning a walk places it at Bit Position 0. -/
theorem restartWalk_eq_placeWalk (s : State) : restartWalk s = s.placeWalk 0 := by
  simp [restartWalk, State.placeWalk]

/-- A walk whose two lower digits are digits is the numeral of its position. -/
theorem State.placeWalk_pos_self {s : State} (hcol : s.col.toNat < s.w.toNat) (hch : s.ch.toNat < s.c.toNat) :
    s.placeWalk s.pos = s := by
  rw [State.placeWalk, State.pos_div_w_mul_c hcol hch, State.pos_div_c_mod_w hcol hch, State.pos_mod_c hch]
  simp [State.setWalk]

theorem State.pos_setWalk (s : State) (r q p : Half) :
    (s.setWalk r q p).pos = (r.toNat * s.w.toNat + q.toNat) * s.c.toNat + p.toNat := rfl

/-- A counter below its extent does not wrap when it counts on. -/
theorem toNat_add_one_of_lt {x y : Half} (h : x.toNat < y.toNat) : (x + 1).toNat = x.toNat + 1 := by
  have hy := y.isLt
  have hone : (1 : Half).toNat = 1 := rfl
  rw [BitVec.toNat_add, hone, Nat.mod_eq_of_lt (by omega)]

/-- Rule R82: from inside, `advance` adds one to the numeral and leaves digits in its two lower places. -/
theorem advance_of_walkInside {s : State} (hin : s.walkInside) :
    (advance s).col.toNat < s.w.toNat ∧ (advance s).ch.toNat < s.c.toNat ∧ (advance s).pos = s.pos + 1 := by
  obtain ⟨hrow, hcol, hch⟩ := hin
  have hrow' := toNat_add_one_of_lt hrow
  have hcol' := toNat_add_one_of_lt hcol
  have hch' := toNat_add_one_of_lt hch
  have hzero : (0 : Half).toNat = 0 := rfl
  rcases advance_cases s with ⟨hne, h⟩ | ⟨heq, hne, h⟩ | ⟨heq, heq', h⟩ <;>
    rw [h, State.pos_setWalk, State.setWalk_col, State.setWalk_ch]
  · have hlt : (s.ch + 1).toNat ≠ s.c.toNat := fun e => hne (BitVec.eq_of_toNat_eq e)
    exact ⟨hcol, by omega, by rw [hch', State.pos, Nat.add_assoc]⟩
  · have hlt : (s.col + 1).toNat ≠ s.w.toNat := fun e => hne (BitVec.eq_of_toNat_eq e)
    have hc : s.c.toNat = s.ch.toNat + 1 := by rw [← heq, hch']
    exact ⟨by omega, by omega, by rw [hcol', hzero, State.pos, hc]; ring⟩
  · have hc : s.c.toNat = s.ch.toNat + 1 := by rw [← heq, hch']
    have hw : s.w.toNat = s.col.toNat + 1 := by rw [← heq', hcol']
    exact ⟨by omega, by omega, by rw [hrow', hzero, State.pos, hw, hc]; ring⟩

/-- Rule R82: from every Bit Position the walk moves to the next, the last one's next being the end. -/
theorem advance_placeWalk {s : State} {k : Nat} (hk : k < s.sampleCount) :
    advance (s.placeWalk k) = s.placeWalk (k + 1) := by
  obtain ⟨hcol, hch, hpos⟩ := advance_of_walkInside (State.placeWalk_walkInside hk)
  have hshape := advance_eq (s.placeWalk k)
  rw [State.placeWalk_pos hk] at hpos
  have hself : (advance (s.placeWalk k)).placeWalk (advance (s.placeWalk k)).pos = advance (s.placeWalk k) := by
    apply State.placeWalk_pos_self
    · rw [hshape]; exact hcol
    · rw [hshape]; exact hch
  rw [← hself, hpos, hshape, State.placeWalk_setWalk, State.placeWalk_placeWalk]

/-- The position of a placed walk, the end of the sequence included. -/
theorem State.placeWalk_pos_of_le {s : State} {k : Nat} (hk : k ≤ s.sampleCount) : (s.placeWalk k).pos = k := by
  cases k with
  | zero => simp [State.placeWalk, State.pos]
  | succ k =>
    have hin := State.placeWalk_walkInside hk
    obtain ⟨-, -, hpos⟩ := advance_of_walkInside hin
    rwa [advance_placeWalk hk, State.placeWalk_pos hk] at hpos

theorem State.placeWalk_exhausted (s : State) (j : Nat) :
    (s.placeWalk (min j s.sampleCount)).exhausted = decide (s.sampleCount ≤ j) := by
  rw [State.exhausted, State.placeWalk_pos_of_le (Nat.min_le_right ..), State.placeWalk_sampleCount]
  simp

/-! ### One command of a run -/

/-- Frame memory after the `j`-th command of a run of `SEQ.GET` and `SEQ.PUT` in a frame of `count` samples: the
companion of `bitCommandEvents`. -/
def Memory.afterBitCommand (m : Memory) (count j : Nat) (i : Instr) : Memory :=
  if j < count then
    match i with
    | .seqPut b => m.write j (setLsb (m.read j) b)
    | _ => m
  else m

/-- Frame memory after a whole run, from its `j`-th command on: the companion of `bitRunEvents`. -/
def Memory.afterBitRun (m : Memory) (count : Nat) : Nat → List Instr → Memory
  | _, [] => m
  | j, i :: rest => (m.afterBitCommand count j i).afterBitRun count (j + 1) rest

theorem Memory.afterBitCommand_of_le (m : Memory) (i : Instr) {count j : Nat} (h : count ≤ j) :
    m.afterBitCommand count j i = m := if_neg (Nat.not_lt.mpr h)

theorem Memory.afterBitCommand_seqPut (m : Memory) (b : Bool) {count j : Nat} (h : j < count) :
    m.afterBitCommand count j (.seqPut b) = m.write j (setLsb (m.read j) b) := if_pos h

theorem bitCommandEvents_of_le (m : Memory) (i : Instr) {count j : Nat} (h : count ≤ j) :
    bitCommandEvents m count j i = [.respond (responseWord .eos 0)] := if_neg (Nat.not_lt.mpr h)

theorem bitCommandEvents_seqPut (m : Memory) (b : Bool) {count j : Nat} (h : j < count) :
    bitCommandEvents m count j (.seqPut b) =
      [.read j (m.read j), .write j (setLsb (m.read j) b), .respond (responseWord .ok (bitData (lsb (m.read j))))] :=
  if_pos h

/-- The state with another frame memory and more events at the end of its trace. -/
def State.record (s : State) (m : Memory) (es : List Event) : State := { s with mem := m, trace := s.trace ++ es }

@[simp] theorem State.record_sampleCount (s : State) (m : Memory) (es : List Event) :
    (s.record m es).sampleCount = s.sampleCount := rfl
@[simp] theorem State.record_mem (s : State) (m : Memory) (es : List Event) : (s.record m es).mem = m := rfl
@[simp] theorem State.record_trace (s : State) (m : Memory) (es : List Event) :
    (s.record m es).trace = s.trace ++ es := rfl
@[simp] theorem State.record_record (s : State) (m m' : Memory) (es es' : List Event) :
    (s.record m es).record m' es' = s.record m' (es ++ es') := by
  simp [State.record]
@[simp] theorem State.placeWalk_trace (s : State) (k : Nat) : (s.placeWalk k).trace = s.trace := rfl

/-- Frame memory, trace and walk are separate. -/
theorem State.record_placeWalk (s : State) (m : Memory) (es : List Event) (k : Nat) :
    (s.placeWalk k).record m es = (s.record m es).placeWalk k := rfl

/-- What overwriting a bit does at Bit Position `j`. -/
theorem putBit_placeWalk {s : State} {j : Nat} (hj : j < s.sampleCount) (b : Bool) :
    putBit b (s.placeWalk j) =
      (lsb (s.mem.read j),
       (s.record (s.mem.write j (setLsb (s.mem.read j) b))
          [.read j (s.mem.read j), .write j (setLsb (s.mem.read j) b)]).placeWalk (j + 1)) := by
  rw [putBit_eq, State.placeWalk_pos hj, advance_placeWalk hj, ← State.record_placeWalk]
  simp [State.record, State.emit, State.setMem]

/-- What reading a bit does at Bit Position `j`. -/
theorem getBit_placeWalk {s : State} {j : Nat} (hj : j < s.sampleCount) :
    getBit (s.placeWalk j) =
      (lsb (s.mem.read j), (s.record s.mem [.read j (s.mem.read j)]).placeWalk (j + 1)) := by
  rw [getBit_eq, State.placeWalk_pos hj, advance_placeWalk hj, ← State.record_placeWalk]
  rfl

theorem respond_record_placeWalk (status : StatusCode) (data : Half) (s : State) (m : Memory) (es : List Event)
    (k : Nat) :
    respond status data ((s.record m es).placeWalk k) =
      (s.record m (es ++ [.respond (responseWord status data)])).placeWalk k := by
  simp [respond, State.emit, State.record, State.placeWalk, State.setWalk]

theorem isBitCommand_iff {i : Instr} : isBitCommand i = true ↔ i = .seqGet ∨ ∃ b, i = .seqPut b := by
  cases i <;> simp [isBitCommand]

/-- Rule R86: at the end both one-bit commands answer `EOS` alone. -/
theorem exec_bitCommand_of_exhausted {i : Instr} (hi : isBitCommand i = true) {s : State} (hex : s.exhausted = true) :
    exec i s = .next (respond .eos 0 s) := by
  rcases isBitCommand_iff.mp hi with rfl | ⟨b, rfl⟩
  · rw [exec_seqGet, if_pos hex]
  · rw [exec_seqPut, if_pos hex]

/-- Rules R83, R84 and R86 for the `j`-th command of a run, at its position or at the end. -/
theorem exec_bitCommand_placeWalk {i : Instr} (hi : isBitCommand i = true) (s : State) (j : Nat) :
    exec i (s.placeWalk (min j s.sampleCount)) =
      .next ((s.record (s.mem.afterBitCommand s.sampleCount j i)
        (bitCommandEvents s.mem s.sampleCount j i)).placeWalk (min (j + 1) s.sampleCount)) := by
  have hex := s.placeWalk_exhausted j
  by_cases hj : j < s.sampleCount
  · rw [Nat.min_eq_left hj.le] at hex ⊢
    rw [Nat.min_eq_left hj]
    rcases isBitCommand_iff.mp hi with rfl | ⟨b, rfl⟩
    · rw [exec_seqGet, hex, getBit_placeWalk hj, respond_record_placeWalk]
      simp [Memory.afterBitCommand, bitCommandEvents, hj]
    · rw [exec_seqPut, hex, putBit_placeWalk hj, respond_record_placeWalk]
      simp [Memory.afterBitCommand, bitCommandEvents, hj]
  · have hend : s.sampleCount ≤ j := Nat.le_of_not_lt hj
    rw [Nat.min_eq_right hend] at hex ⊢
    rw [Nat.min_eq_right (by omega), exec_bitCommand_of_exhausted hi (hex.trans (decide_eq_true hend)),
      Memory.afterBitCommand_of_le _ _ hend, bitCommandEvents_of_le _ _ hend]
    rfl

/-! ### A run of one-bit commands -/

theorem eventsSince_record_placeWalk (s : State) (m : Memory) (es : List Event) (k : Nat) :
    eventsSince s ((s.record m es).placeWalk k) = es := List.drop_left

theorem execAll_cons {i : Instr} {s t : State} (h : exec i s = .next t) (is : List Instr) :
    execAll (i :: is) s = execAll is t := by
  simp [execAll, h]

/-- A run from its `j`-th command on sees the samples from address `j` on, and nothing before them. -/
theorem bitRunEvents_congr (count : Nat) (is : List Instr) {m m' : Memory} {j : Nat}
    (h : ∀ a, j ≤ a → m.read a = m'.read a) : bitRunEvents m count j is = bitRunEvents m' count j is := by
  induction is generalizing j with
  | nil => rfl
  | cons i rest ih =>
    simp only [bitRunEvents, bitCommandEvents, h j le_rfl, ih fun a ha => h a (Nat.le_of_succ_le ha)]

/-- A command of the run changes no sample but that of its own position. -/
theorem Memory.read_afterBitCommand_of_ne (m : Memory) (count : Nat) (i : Instr) {j a : Nat} (ha : a ≠ j) :
    (m.afterBitCommand count j i).read a = m.read a := by
  unfold Memory.afterBitCommand
  split
  · cases i <;> simp [ha]
  · rfl

theorem bitRunEvents_afterBitCommand (m : Memory) (count j : Nat) (i : Instr) (is : List Instr) :
    bitRunEvents (m.afterBitCommand count j i) count (j + 1) is = bitRunEvents m count (j + 1) is :=
  bitRunEvents_congr count is fun a ha => m.read_afterBitCommand_of_ne count i (by omega)

/-- Rules R81, R85 and R86: a run of one-bit commands from its `j`-th on. -/
theorem execAll_bitCommands_placeWalk (is : List Instr) (hall : ∀ i ∈ is, isBitCommand i = true) (s : State) (j : Nat) :
    execAll is (s.placeWalk (min j s.sampleCount)) =
      .next ((s.record (s.mem.afterBitRun s.sampleCount j is)
        (bitRunEvents s.mem s.sampleCount j is)).placeWalk (min (j + is.length) s.sampleCount)) := by
  induction is generalizing s j with
  | nil => simp [execAll, Memory.afterBitRun, bitRunEvents, State.record]
  | cons i rest ih =>
    obtain ⟨hi, hrest⟩ := List.forall_mem_cons.mp hall
    rw [execAll_cons (exec_bitCommand_placeWalk hi s j)]
    have hrun := ih hrest (s.record (s.mem.afterBitCommand s.sampleCount j i)
      (bitCommandEvents s.mem s.sampleCount j i)) (j + 1)
    rw [State.record_sampleCount] at hrun
    rw [hrun, State.record_record, State.record_mem, bitRunEvents_afterBitCommand, List.length_cons, Nat.add_right_comm,
      Nat.add_assoc]
    rfl

/-- Rule R80 and the run after it. -/
theorem execAll_seqStart_bitCommands (is : List Instr) (hall : ∀ i ∈ is, isBitCommand i = true) (s : State) :
    execAll (.seqStart :: is) s =
      .next ((s.record (s.mem.afterBitRun s.sampleCount 0 is)
        (.respond 0 :: bitRunEvents s.mem s.sampleCount 0 is)).placeWalk (min is.length s.sampleCount)) := by
  have hstart : exec .seqStart s = .next ((s.record s.mem [.respond 0]).placeWalk 0) := by
    rw [exec_seqStart, restartWalk_eq_placeWalk]
    rfl
  have hrun := execAll_bitCommands_placeWalk is hall (s.record s.mem [.respond 0]) 0
  rw [Nat.zero_min] at hrun
  rw [execAll_cons hstart, hrun, State.record_record, Nat.zero_add]
  rfl

/-- The responses of a run: one a command. -/
theorem length_responses_bitRunEvents (m : Memory) (count j : Nat) (is : List Instr) :
    ((bitRunEvents m count j is).filter fun e => !e.isAccess).length = is.length := by
  induction is generalizing j with
  | nil => rfl
  | cons i rest ih =>
    have hone : ((bitCommandEvents m count j i).filter fun e => !e.isAccess).length = 1 := by
      unfold bitCommandEvents
      split
      · split <;> rfl
      · rfl
    rw [bitRunEvents, List.filter_append, List.length_append, hone, ih, List.length_cons, Nat.add_comm]

theorem bitRunEvents_append (m : Memory) (count j : Nat) (is is' : List Instr) :
    bitRunEvents m count j (is ++ is') = bitRunEvents m count j is ++ bitRunEvents m count (j + is.length) is' := by
  induction is generalizing j with
  | nil => rfl
  | cons i rest ih => simp [bitRunEvents, ih, Nat.add_comm, Nat.add_left_comm]

/-- A run that is longer than the frame ends in `EOS`. -/
theorem getLast?_bitRunEvents (m : Memory) {count j : Nat} (is : List Instr) (i : Instr) (h : count ≤ j + is.length) :
    (bitRunEvents m count j (is ++ [i])).getLast? = some (.respond 0x10000000) := by
  have hend : bitCommandEvents m count (j + is.length) i = [.respond 0x10000000] := bitCommandEvents_of_le m i h
  simp [bitRunEvents_append, bitRunEvents, hend]

/-- What a run of `SEQ.PUT` leaves at each address: its bit where there is one and the position exists. -/
theorem Memory.read_afterBitRun_seqPut (m : Memory) (count j : Nat) (bits : List Bool) (a : Nat) :
    (m.afterBitRun count j (bits.map .seqPut)).read a =
      if j ≤ a ∧ a < count then (bits[a - j]?.map (setLsb (m.read a))).getD (m.read a) else m.read a := by
  induction bits generalizing m j with
  | nil => simp [Memory.afterBitRun]
  | cons b rest ih =>
    rw [List.map_cons, Memory.afterBitRun, ih]
    rcases Nat.lt_trichotomy a j with h | rfl | h
    · rw [m.read_afterBitCommand_of_ne _ _ (by omega), if_neg (by omega), if_neg (by omega)]
    · rw [if_neg (by omega)]
      simp only [Memory.afterBitCommand]
      by_cases ha : a < count <;> simp [ha]
    · obtain ⟨k, rfl⟩ : ∃ k, a = j + 1 + k := ⟨a - (j + 1), by omega⟩
      have hk : j + 1 + k - j = k + 1 := by omega
      rw [m.read_afterBitCommand_of_ne _ _ (by omega), hk, List.getElem?_cons_succ, Nat.add_sub_cancel_left]
      simp [show j ≤ j + 1 + k by omega]

/-! ### `EMBED` as a run -/

/-- Overwriting bit after bit from Bit Position `j` on is the run of the `SEQ.PUT` commands without its responses (rule
R108), as far as the frame reaches. -/
theorem foldl_putBit_placeWalk (bits : List Bool) (s : State) (j : Nat) (hfit : j + bits.length ≤ s.sampleCount) :
    bits.foldl (fun t b => (putBit b t).2) (s.placeWalk j) =
      (s.record (s.mem.afterBitRun s.sampleCount j (bits.map .seqPut))
        ((bitRunEvents s.mem s.sampleCount j (bits.map .seqPut)).filter Event.isAccess)).placeWalk
          (j + bits.length) := by
  induction bits generalizing s j with
  | nil => simp [Memory.afterBitRun, bitRunEvents, State.record]
  | cons b rest ih =>
    rw [List.length_cons] at hfit
    have hj : j < s.sampleCount := by omega
    have hevents : (bitCommandEvents s.mem s.sampleCount j (.seqPut b)).filter Event.isAccess =
        [.read j (s.mem.read j), .write j (setLsb (s.mem.read j) b)] := by
      rw [bitCommandEvents_seqPut _ _ hj]
      rfl
    have hrun := ih (s.record (s.mem.afterBitCommand s.sampleCount j (.seqPut b))
      ((bitCommandEvents s.mem s.sampleCount j (.seqPut b)).filter Event.isAccess)) (j + 1)
      (by rw [State.record_sampleCount]; omega)
    rw [List.foldl_cons, putBit_placeWalk hj, ← Memory.afterBitCommand_seqPut _ _ hj, ← hevents, hrun,
      State.record_record, State.record_mem, State.record_sampleCount, bitRunEvents_afterBitCommand,
      ← List.filter_append, List.length_cons, Nat.add_right_comm, Nat.add_assoc]
    rfl

/-- The bits of a Payload Unit, most significant first (rule R48). -/
def unitBits (v : Byte) : List Bool := unitPositions.map (unitBit v)

theorem embedBitsCommands_eq (v : Byte) : embedBitsCommands v = .seqStart :: (unitBits v).map .seqPut := by
  simp [embedBitsCommands, unitBits]

theorem putUnit_eq_foldl (v : Byte) (s : State) :
    putUnit v s = (unitBits v).foldl (fun t b => (putBit b t).2) s := by
  rw [unitBits, List.foldl_map, putUnit]

theorem getElem?_unitBits (v : Byte) (k : Nat) :
    (unitBits v)[k]? = if k < 8 then some (v.getLsbD (7 - k)) else none := by
  have hrange : unitPositions = List.range 8 := rfl
  split
  next hk => simp [unitBits, hrange, hk, unitBit]
  next hk => simp [unitBits, hrange, hk]

/-- Frame memory with `v` written bit after bit from Bit Position 0 on, as far as the frame reaches. -/
def State.unitMemory (s : State) (v : Byte) : Memory := s.mem.afterBitRun s.sampleCount 0 ((unitBits v).map .seqPut)

/-- What the 8 `SEQ.PUT` commands of `v` show. -/
def State.unitEvents (s : State) (v : Byte) : List Event :=
  bitRunEvents s.mem s.sampleCount 0 ((unitBits v).map .seqPut)

theorem State.read_unitMemory (s : State) (v : Byte) (a : Nat) :
    (s.unitMemory v).read a =
      if a < 8 ∧ a < s.sampleCount then (s.mem.read a &&& 0xFE) ||| (if v.getLsbD (7 - a) then 1 else 0)
      else s.mem.read a := by
  have hset : ∀ (x : Byte) (b : Bool), setLsb x b = (x &&& 0xFE) ||| (if b then 1 else 0) := by
    intro x b
    cases b <;> rfl
  rw [State.unitMemory, Memory.read_afterBitRun_seqPut, Nat.sub_zero, getElem?_unitBits]
  by_cases h8 : a < 8 <;> by_cases hcount : a < s.sampleCount <;> simp [h8, hcount, hset]

theorem State.length_responses_unitEvents (s : State) (v : Byte) :
    ((s.unitEvents v).filter fun e => !e.isAccess).length = 8 := length_responses_bitRunEvents ..

/-- With fewer than 8 samples the last of the 8 commands finds the walk at its end. -/
theorem State.getLast?_unitEvents {s : State} (h : s.sampleCount < 8) (v : Byte) :
    (s.unitEvents v).getLast? = some (.respond 0x10000000) :=
  getLast?_bitRunEvents s.mem (((unitBits v).take 7).map .seqPut) (.seqPut (unitBit v 7))
    ((Nat.le_of_lt_succ h).trans (Nat.le_add_left 7 0))

/-- Rule R71: `EMBED.BITS` restarts the walk and runs the 8 bits, to the end of a short frame. -/
theorem execAll_embedBitsCommands (v : Byte) (s : State) :
    execAll (embedBitsCommands v) s =
      .next ((s.record (s.unitMemory v) (.respond 0 :: s.unitEvents v)).placeWalk (min 8 s.sampleCount)) := by
  rw [embedBitsCommands_eq, execAll_seqStart_bitCommands _ (List.forall_mem_map.mpr fun _ _ => rfl)]
  rfl

/-- Rule R100 with 8 samples or more: `EMBED` is the run of the 8 bits, with `DATA` set and one response. -/
theorem exec_embed_of_le {s : State} (h : 8 ≤ s.sampleCount) (v : Byte) :
    exec (.embed v) s =
      .next (((s.setData v).record (s.unitMemory v)
        ((s.unitEvents v).filter Event.isAccess ++ [.respond 0])).placeWalk 8) := by
  have hfold := foldl_putBit_placeWalk (unitBits v) (s.setData v) 0 h
  have hdata : (restartWalk s).setData v = (s.setData v).placeWalk 0 := by
    rw [restartWalk_eq_placeWalk]
    rfl
  rw [exec_embed, if_neg (Nat.not_lt.mpr h), putUnit_eq_foldl, hdata, hfold, respond_record_placeWalk]
  rfl

/-- Rule R100 with fewer than 8 samples. -/
theorem exec_embed_of_lt {s : State} (h : s.sampleCount < 8) (v : Byte) :
    exec (.embed v) s = .next ((s.setEIfb.record s.mem [.respond 0x20000000]).placeWalk 0) := by
  rw [exec_embed, if_pos h, restartWalk_eq_placeWalk]
  rfl

/-! ### The pseudo-commands -/

theorem assemble_setShape (h w c : Half) :
    Line.assemble (.setShape h.toNat w.toNat c.toNat) = .commands [.seth h, .setw w, .setc c] := by
  have hle : ∀ x : Half, x.toNat ≤ 65535 := fun x => Nat.le_of_lt_succ x.isLt
  simp [Line.assemble, hle, setShapeCommands]

theorem assemble_embedBits (v : Byte) : Line.assemble (.embedBits v.toNat) = .commands (embedBitsCommands v) := by
  have hle : v.toNat ≤ 255 := Nat.le_of_lt_succ v.isLt
  simp [Line.assemble, hle]

/-- `EMBED v` against the run of its 8 bits, in both sizes of frame. -/
theorem exec_embed_against_run (v : Byte) (s : State) :
    ∃ te, exec (.embed v) s = .next te ∧
      (8 ≤ s.sampleCount → te.mem = s.unitMemory v ∧
        te.row = (s.placeWalk 8).row ∧ te.col = (s.placeWalk 8).col ∧ te.ch = (s.placeWalk 8).ch) ∧
      (s.sampleCount < 8 → te.mem = s.mem) := by
  rcases Nat.lt_or_ge s.sampleCount 8 with h | h
  · exact ⟨_, exec_embed_of_lt h v, fun hle => absurd h (Nat.not_lt.mpr hle), fun _ => rfl⟩
  · exact ⟨_, exec_embed_of_le h v, fun _ => ⟨rfl, rfl, rfl, rfl⟩, fun hlt => absurd hlt (Nat.not_lt.mpr h)⟩

/-- Settles O49: `EMBED.BITS v` is the run of the 8 bits of `v`, and `EMBED v` the same run where it performs at all. -/
theorem pseudoCommandsExpandAndEmbedBitsWrites : Obligations.PseudoCommandsExpandAndEmbedBitsWrites := by
  refine ⟨assemble_setShape, rfl, rfl, fun v s => ?_⟩
  obtain ⟨te, hte, hlong, hshort⟩ := exec_embed_against_run v s
  refine ⟨embedBitsCommands v, _, te, assemble_embedBits v, rfl, execAll_embedBitsCommands v s, hte, ?_, rfl, rfl,
    s.read_unitMemory v, fun h => ?_, fun h => ⟨?_, hshort h⟩⟩
  · rw [eventsSince_record_placeWalk]
    exact congrArg (· + 1) (s.length_responses_unitEvents v)
  · obtain ⟨hmem, hrow, hcol, hch⟩ := hlong h
    rw [Nat.min_eq_left h, hmem, hrow, hcol, hch]
    exact ⟨rfl, rfl, rfl, rfl⟩
  · rw [State.placeWalk_trace, State.record_trace, List.getLast?_append, List.getLast?_cons,
      State.getLast?_unitEvents h]
    rfl

end Sys2Proof.Machine
end

section
/-! SUPPORT. The Bit-Sequencer commands one at a time: `advance` from a walk of rule R15's form (rule R82), what
`SEQ.START`, `SEQ.GET` and `SEQ.PUT` show and change (rules R80, R83, R84), `EXTRACT` as a run of reads (rule R104), and
which commands leave the end of the sequence (rule R86). -/

namespace Sys2Proof.Machine

/-! ### Where the walk stands and moves to -/

theorem State.walkAtStart.pos_eq {s : State} (hstart : s.walkAtStart) : s.pos = 0 := by
  obtain ⟨hrow, hcol, hch⟩ := hstart
  simp [State.pos, hrow, hcol, hch]

theorem State.walkAtEnd.pos_eq {s : State} (hend : s.walkAtEnd) : s.pos = s.sampleCount := by
  obtain ⟨hrow, hcol, hch, -⟩ := hend
  simp [State.pos, State.sampleCount, hrow, hcol, hch]

/-- In a frame that is not empty the start of the walk lies inside. -/
theorem State.walkAtStart.walkInside {s : State} (hstart : s.walkAtStart) (hpos : 0 < s.sampleCount) :
    s.walkInside := by
  obtain ⟨hrow, hcol, hch⟩ := hstart
  rw [State.walkInside, hrow, hcol, hch]
  exact State.extents_pos hpos

theorem State.exhausted_eq_false_iff (s : State) : s.exhausted = false ↔ s.pos < s.sampleCount := by
  simp [State.exhausted]

/-- Of the three forms of rule R15 only the inside one has a position to move on from. -/
theorem WalkForm.walkInside {s : State} (hform : WalkForm s) (hpos : s.pos < s.sampleCount) : s.walkInside := by
  rcases hform with hstart | hin | hend
  · exact hstart.walkInside (Nat.zero_lt_of_lt hpos)
  · exact hin
  · exact absurd hend.pos_eq hpos.ne

/-- Rule R15: the numeral of `N()` is the end form. -/
theorem State.placeWalk_end {s : State} (hpos : 0 < s.sampleCount) : s.placeWalk s.sampleCount = s.setWalk s.h 0 0 := by
  obtain ⟨-, hw, hc⟩ := State.extents_pos hpos
  have hrow : s.sampleCount / (s.w.toNat * s.c.toNat) = s.h.toNat := by
    rw [State.sampleCount, Nat.mul_assoc, Nat.mul_div_cancel _ (Nat.mul_pos hw hc)]
  have hcol : s.sampleCount / s.c.toNat % s.w.toNat = 0 := by
    rw [State.sampleCount, Nat.mul_div_cancel _ hc, Nat.mul_mod_left]
  have hch : s.sampleCount % s.c.toNat = 0 := Nat.mul_mod_left ..
  simp [State.placeWalk, hrow, hcol, hch]

section
variable {s : State} (hin : s.walkInside)
include hin

/-- Rule R82 by Bit Positions. -/
theorem State.walkInside.advance_eq_placeWalk : advance s = s.placeWalk (s.pos + 1) := by
  have ⟨_, hcol, hch⟩ := hin
  calc advance s = advance (s.placeWalk s.pos) := by rw [State.placeWalk_pos_self hcol hch]
    _ = s.placeWalk (s.pos + 1) := advance_placeWalk hin.pos_lt

/-- From the last Bit Position the walk comes to (`H`, 0, 0). -/
theorem State.walkInside.advance_of_last (hlast : s.pos + 1 = s.sampleCount) : advance s = s.setWalk s.h 0 0 := by
  rw [hin.advance_eq_placeWalk, hlast, State.placeWalk_end (by omega)]

/-- `advance` keeps the form of the walk. -/
theorem State.walkInside.advance_form : (advance s).walkInside ∨ (advance s).walkAtEnd := by
  have hlt := hin.pos_lt
  rcases Nat.lt_or_ge (s.pos + 1) s.sampleCount with hnext | hlast
  · rw [hin.advance_eq_placeWalk]
    exact .inl (State.placeWalk_walkInside hnext)
  · rw [hin.advance_of_last (by omega)]
    exact .inr ⟨rfl, rfl, rfl, Nat.zero_lt_of_lt hlt⟩

end

/-- A counter below its extent reaches it exactly when nothing lies between them. -/
theorem add_one_eq_iff_of_lt {x y : Half} (h : x.toNat < y.toNat) : x + 1 = y ↔ ¬ x.toNat + 1 < y.toNat := by
  rw [← BitVec.toNat_inj, toNat_add_one_of_lt h]
  omega

/-- Rule R82 line for line: which counter moves is told by the numbers of the walk. -/
theorem State.walkInside.advance_carries {s : State} (hin : s.walkInside) :
    advance s =
      if s.ch.toNat + 1 < s.c.toNat then s.setWalk s.row s.col (s.ch + 1)
      else if s.col.toNat + 1 < s.w.toNat then s.setWalk s.row (s.col + 1) 0
      else s.setWalk (s.row + 1) 0 0 := by
  obtain ⟨-, hcol, hch⟩ := hin
  have hcarryCh := add_one_eq_iff_of_lt hch
  have hcarryCol := add_one_eq_iff_of_lt hcol
  rcases advance_cases s with ⟨hne, h⟩ | ⟨heq, hne, h⟩ | ⟨heq, heq', h⟩
  · rw [h, if_pos (not_not.mp (mt hcarryCh.mpr hne))]
  · rw [h, if_neg (hcarryCh.mp heq), if_pos (not_not.mp (mt hcarryCol.mpr hne))]
  · rw [h, if_neg (hcarryCh.mp heq), if_neg (hcarryCol.mp heq')]

/-- Settles O14: a walk that is not exhausted is inside, and there `advance` is the next numeral. -/
theorem advanceMovesOnePositionOn : Obligations.AdvanceMovesOnePositionOn := by
  intro s hform hex
  have hin := hform.walkInside (s.exhausted_eq_false_iff.mp hex)
  obtain ⟨-, -, hpos⟩ := advance_of_walkInside hin
  refine ⟨hin, hin.advance_carries, hpos, hin.advance_form, fun hlast => ?_⟩
  rw [hin.advance_of_last hlast]
  exact ⟨rfl, rfl, rfl⟩

/-! ### The one-bit commands -/

/-- The sample with its bit 0 replaced, as a number. -/
theorem toNat_setLsb (sample : Byte) (b : Bool) :
    (setLsb sample b).toNat + (lsb sample).toNat = sample.toNat + b.toNat := by
  revert sample b; decide

theorem setLsb_eq_or (sample : Byte) (b : Bool) : setLsb sample b = (sample &&& 0xFE) ||| (if b then 1 else 0) := by
  cases b <;> rfl

/-- The response that carries one bit (rules R63 and R83). -/
theorem responseWord_ok_bitData (b : Bool) :
    responseWord .ok (bitData b) = if b then 0x00000001 else 0x00000000 := by
  cases b <;> rfl

/-- What `respond` and the walk leave of a recorded state, in fields. -/
theorem respond_record_setWalk (status : StatusCode) (data : Half) (s : State) (m : Memory) (es : List Event)
    (r q p : Half) :
    respond status data ((s.record m es).setWalk r q p) =
      { s with row := r, col := q, ch := p, mem := m,
               trace := s.trace ++ (es ++ [.respond (responseWord status data)]) } := by
  simp [respond_eq, State.record, State.setWalk]

/-- `getBit` reads one sample and writes the walk alone. -/
theorem getBit_eq_record (s : State) :
    getBit s = (lsb (s.mem.read s.pos),
      (s.record s.mem [.read s.pos (s.mem.read s.pos)]).setWalk
        (advance s).row (advance s).col (advance s).ch) := by
  rw [getBit_eq]
  conv_lhs => rw [advance_eq]
  rfl

/-- `putBit` reads and writes one sample and the walk alone. -/
theorem putBit_eq_record (b : Bool) (s : State) :
    putBit b s = (lsb (s.mem.read s.pos),
      (s.record (s.mem.write s.pos (setLsb (s.mem.read s.pos) b))
        [.read s.pos (s.mem.read s.pos), .write s.pos (setLsb (s.mem.read s.pos) b)]).setWalk
        (advance s).row (advance s).col (advance s).ch) := by
  rw [putBit_eq]
  conv_lhs => rw [advance_eq]
  simp [State.record, State.emit, State.setMem, State.setWalk]

/-- Rule R83 before the end. -/
theorem exec_seqGet_of_not_exhausted {s : State} (hex : ¬ s.exhausted = true) :
    exec .seqGet s = .next { s with
      row := (advance s).row, col := (advance s).col, ch := (advance s).ch,
      trace := s.trace ++
        [.read s.pos (s.mem.read s.pos), .respond (if lsb (s.mem.read s.pos) then 0x00000001 else 0x00000000)] } := by
  rw [exec_seqGet, if_neg hex, getBit_eq_record, respond_record_setWalk, responseWord_ok_bitData]
  rfl

/-- Rule R84 before the end. -/
theorem exec_seqPut_of_not_exhausted (b : Bool) {s : State} (hex : ¬ s.exhausted = true) :
    exec (.seqPut b) s = .next { s with
      row := (advance s).row, col := (advance s).col, ch := (advance s).ch,
      mem := s.mem.write s.pos (setLsb (s.mem.read s.pos) b),
      trace := s.trace ++
        [.read s.pos (s.mem.read s.pos), .write s.pos (setLsb (s.mem.read s.pos) b),
         .respond (if lsb (s.mem.read s.pos) then 0x00000001 else 0x00000000)] } := by
  rw [exec_seqPut, if_neg hex, putBit_eq_record, respond_record_setWalk, responseWord_ok_bitData]
  rfl

/-- Settles O21: `putBit` and one response; the new sample as a number is `toNat_setLsb`. -/
theorem seqPutOverwritesTheBitAndMovesOn : Obligations.SeqPutOverwritesTheBitAndMovesOn := by
  intro b
  refine ⟨by cases b <;> rfl, fun s => ?_⟩
  by_cases hex : s.exhausted = true
  · rw [if_pos hex, exec_seqPut, if_pos hex]
    rfl
  · rw [if_neg hex]
    exact ⟨_, s.mem.read s.pos, setLsb (s.mem.read s.pos) b, exec_seqPut_of_not_exhausted b hex, rfl,
      setLsb_eq_or _ b, fun a => Memory.read_write s.mem s.pos a _, toNat_setLsb _ b, rfl⟩

/-- Settles O20: `getBit` and one response. -/
theorem seqGetYieldsTheBitAndMovesOn : Obligations.SeqGetYieldsTheBitAndMovesOn := by
  refine ⟨rfl, fun s => ?_⟩
  by_cases hex : s.exhausted = true
  · rw [if_pos hex, exec_seqGet, if_pos hex]
    rfl
  · rw [if_neg hex]
    exact exec_seqGet_of_not_exhausted hex

/-! ### The beginning of a walk -/

theorem State.getLsbD_statusWord_zero (s : State) : s.statusWord.getLsbD 0 = s.exhausted := by
  refine BitVec.getLsbD_append.trans ?_
  cases s.exhausted <;> rfl

/-- Settles O19: the walk restarts at position 0, which is the end exactly in an empty frame. -/
theorem seqStartRestartsTheWalk : Obligations.SeqStartRestartsTheWalk := by
  refine ⟨rfl, fun s => ?_⟩
  have hpos : (respond .ok 0 (restartWalk s)).pos = 0 := State.walkAtStart.pos_eq ⟨rfl, rfl, rfl⟩
  refine ⟨_, exec_seqStart s, rfl, hpos, ?_⟩
  rw [State.getLsbD_statusWord_zero, State.exhausted, hpos]
  exact decide_eq_decide.mpr Nat.le_zero

/-! ### `EXTRACT` as a run of reads -/

/-- The block's reads of `n` samples from address `j` on, in order. -/
def readEvents (m : Memory) (j n : Nat) : List Event := (List.range' j n).map fun a => .read a (m.read a)

/-- The low bits of `n` samples from address `j` on, shifted into `acc` one after the other (rule R104). -/
def shiftInBits (m : Memory) (acc : Byte) (j n : Nat) : Byte :=
  (List.range' j n).foldl (fun x a => shiftIn x (lsb (m.read a))) acc

theorem readEvents_succ (m : Memory) (j n : Nat) :
    readEvents m j (n + 1) = .read j (m.read j) :: readEvents m (j + 1) n := rfl

theorem shiftInBits_succ (m : Memory) (acc : Byte) (j n : Nat) :
    shiftInBits m acc j (n + 1) = shiftInBits m (shiftIn acc (lsb (m.read j))) (j + 1) n := rfl

/-- Reading bit after bit from Bit Position `j` on, as far as the frame reaches: the companion of
`foldl_putBit_placeWalk`. -/
theorem foldl_getBit_placeWalk (positions : List Nat) (acc : Byte) (s : State) (j : Nat)
    (hfit : j + positions.length ≤ s.sampleCount) :
    positions.foldl (fun p _ => (shiftIn p.1 (getBit p.2).1, (getBit p.2).2)) (acc, s.placeWalk j) =
      (shiftInBits s.mem acc j positions.length,
        (s.record s.mem (readEvents s.mem j positions.length)).placeWalk (j + positions.length)) := by
  induction positions generalizing acc s j with
  | nil => simp [shiftInBits, readEvents, State.record]
  | cons i rest ih =>
    rw [List.length_cons] at hfit
    have hrun := ih (shiftIn acc (lsb (s.mem.read j))) (s.record s.mem [.read j (s.mem.read j)]) (j + 1)
      (by rw [State.record_sampleCount]; omega)
    rw [List.foldl_cons, getBit_placeWalk (by omega), hrun, State.record_record, State.record_mem, List.length_cons,
      readEvents_succ, shiftInBits_succ, Nat.add_right_comm, Nat.add_assoc]
    rfl

/-- Rule R104's loop in a frame of 8 samples or more. -/
theorem getUnit_restartWalk {s : State} (h : 8 ≤ s.sampleCount) :
    getUnit (restartWalk s) =
      (shiftInBits s.mem 0 0 8, (s.record s.mem (readEvents s.mem 0 8)).placeWalk 8) := by
  rw [restartWalk_eq_placeWalk]
  exact foldl_getBit_placeWalk unitPositions 0 s 0 h

/-- Rule R104 with 8 samples or more: the 8 reads, with `DATA` set and one response. -/
theorem exec_extract_of_le {s : State} (h : 8 ≤ s.sampleCount) :
    exec .extract s =
      .next (((s.setData (shiftInBits s.mem 0 0 8)).record s.mem
        (readEvents s.mem 0 8 ++
          [.respond (responseWord .ok ((shiftInBits s.mem 0 0 8).setWidth 16))])).placeWalk 8) := by
  rw [exec_extract, if_neg (Nat.not_lt.mpr h), getUnit_restartWalk h, ← respond_record_placeWalk]
  rfl

/-- Rule R104 with fewer than 8 samples. -/
theorem exec_extract_of_lt {s : State} (h : s.sampleCount < 8) :
    exec .extract s = .next ((s.setEIfb.record s.mem [.respond 0x20000000]).placeWalk 0) := by
  rw [exec_extract, if_pos h, restartWalk_eq_placeWalk]
  rfl

/-! ### The end of the sequence -/

theorem State.placeWalk_zero_walkAtStart (s : State) : (s.placeWalk 0).walkAtStart := by
  rw [← restartWalk_eq_placeWalk]
  exact ⟨rfl, rfl, rfl⟩

/-- Rule R86 for a run: the end answers `EOS` to every one-bit command and nothing else happens. -/
theorem execAll_bitCommands_of_exhausted (is : List Instr) (hall : ∀ i ∈ is, isBitCommand i = true) {s : State}
    (hex : s.exhausted = true) :
    execAll is s = .next { s with trace := s.trace ++ is.map fun _ => .respond 0x10000000 } := by
  induction is generalizing s with
  | nil => simp [execAll]
  | cons i rest ih =>
    obtain ⟨hi, hrest⟩ := List.forall_mem_cons.mp hall
    have hkeeps : (respond .eos 0 s).exhausted = true := hex
    have heos : responseWord .eos 0 = 0x10000000 := rfl
    rw [execAll_cons (exec_bitCommand_of_exhausted hi hex), ih hrest hkeeps, respond_eq, heos]
    simp

/-- The commands that do not restart the walk leave it at its end. -/
theorem exec_keeps_exhausted {i : Instr} {s t : State} (hi : isBitCommand i = true ∨ i.mnemonic = .rdreg)
    (h : exec i s = .next t) (hex : s.exhausted = true) : t.exhausted = true := by
  rcases hi with hbit | hrdreg
  · rw [exec_bitCommand_of_exhausted hbit hex] at h
    cases h
    exact hex
  · cases i with
    | rdreg r => cases h; exact hex
    | _ => cases hrdreg

/-- Every other command begins a walk, and only a completed `EMBED` or `EXTRACT` moves it on, to Bit Position 8. -/
theorem exec_restarts_walk {i : Instr} {s t : State} (hbit : isBitCommand i = false) (hrdreg : i.mnemonic ≠ .rdreg)
    (h : exec i s = .next t) :
    t.walkAtStart ∨ (i.mnemonic = .embed ∨ i.mnemonic = .extract) ∧ t.pos = 8 := by
  cases i with
  | seth | setw | setc | seqStart => cases h; exact .inl ⟨rfl, rfl, rfl⟩
  | rdreg => exact absurd rfl hrdreg
  | seqGet | seqPut => cases hbit
  | embed v =>
    rcases Nat.lt_or_ge s.sampleCount 8 with hlt | hge
    · rw [exec_embed_of_lt hlt] at h
      cases h
      exact .inl (State.placeWalk_zero_walkAtStart _)
    · rw [exec_embed_of_le hge] at h
      cases h
      exact .inr ⟨.inl rfl, State.placeWalk_pos_of_le hge⟩
  | extract =>
    rcases Nat.lt_or_ge s.sampleCount 8 with hlt | hge
    · rw [exec_extract_of_lt hlt] at h
      cases h
      exact .inl (State.placeWalk_zero_walkAtStart _)
    · rw [exec_extract_of_le hge] at h
      cases h
      exact .inr ⟨.inr rfl, State.placeWalk_pos_of_le hge⟩

theorem isBitCommand_iff_mnemonic (i : Instr) :
    isBitCommand i = true ↔ i.mnemonic = .seqGet ∨ i.mnemonic = .seqPut := by
  cases i <;> simp [isBitCommand, Instr.mnemonic]

/-- Settles O22: a command that does not restart the walk keeps the end, and every other one restarts it. -/
theorem exhaustedWalkStaysAtItsEnd : Obligations.ExhaustedWalkStaysAtItsEnd := by
  refine fun s hex => ⟨fun is hall => execAll_bitCommands_of_exhausted is hall hex, fun i t h hleft => ?_⟩
  have hnot : ¬ (isBitCommand i = true ∨ i.mnemonic = .rdreg) := fun hi =>
    absurd (exec_keeps_exhausted hi h hex) (by simp [hleft])
  obtain ⟨hbit, hrdreg⟩ := not_or.mp hnot
  obtain ⟨hget, hput⟩ := not_or.mp (mt (isBitCommand_iff_mnemonic i).mpr hbit)
  exact ⟨hget, hput, hrdreg, exec_restarts_walk (Bool.eq_false_of_not_eq_true hbit) hrdreg h⟩

end Sys2Proof.Machine
end

section
/-! SUPPORT. The Frame Codec: what a completed `EMBED` leaves in each sample and shows at frame memory (rules R100 to
R102), which bits the value of `EXTRACT` has (rules R104 and R105), that the two undo each other (rule R106), and that
neither reads what was left by earlier commands (rule R109). -/

namespace Sys2Proof.Machine

/-! ### The words of the Frame Codec -/

/-- Table T6: the operand of a command word stands in its low half, below the opcode. -/
theorem commandWord_eq_or (op : BitVec 8) (imm : Half) :
    commandWord op imm = commandWord op 0 ||| imm.setWidth 32 := by
  apply BitVec.eq_of_getLsbD_eq
  intro k hk
  rw [BitVec.getLsbD_or, Laws.getLsbD_commandWord, Laws.getLsbD_commandWord, BitVec.getLsbD_setWidth]
  by_cases h : k < 16
  · simp [h, hk]
  · simp [h, BitVec.getLsbD_of_ge imm k (Nat.le_of_not_lt h)]

/-- Rule R63: the word of an `OK` response is its data, because the status `OK` is zero. -/
theorem responseWord_ok (data : Half) : responseWord .ok data = data.setWidth 32 := by
  rw [BitVec.setWidth_eq_append (by decide)]
  rfl

theorem responseWord_ok_byte (v : Byte) : responseWord .ok (v.setWidth 16) = v.setWidth 32 := by
  rw [responseWord_ok, BitVec.setWidth_setWidth (by decide)]

/-! ### Where the walk stands afterwards -/

/-- Rule R15: in a frame that is not empty, the walk at a Bit Position is inside, and at `N()` at its end. -/
theorem State.placeWalk_form {s : State} {k : Nat} (hpos : 0 < s.sampleCount) (hk : k ≤ s.sampleCount) :
    WalkForm (s.placeWalk k) := by
  rcases Nat.lt_or_eq_of_le hk with hlt | rfl
  · exact .inr (.inl (State.placeWalk_walkInside hlt))
  · rw [State.placeWalk_end hpos]
    exact .inr (.inr ⟨rfl, rfl, rfl, hpos⟩)

/-- Rule R18 after 8 bits: the walk is at its end exactly in a frame of 8 samples. -/
theorem State.placeWalk_eight_exhausted {s : State} (h : 8 ≤ s.sampleCount) :
    (s.placeWalk 8).exhausted = decide (s.sampleCount = 8) := by
  rw [State.exhausted, State.placeWalk_pos_of_le h, State.placeWalk_sampleCount]
  exact decide_eq_decide.mpr ⟨fun hle => Nat.le_antisymm hle h, Nat.le_of_eq⟩

/-! ### What `EMBED` leaves and shows -/

/-- Rules R50 and R51: a run of `SEQ.PUT` inside the frame reads and then writes each sample in turn. -/
theorem accesses_bitRunEvents_seqPut (m : Memory) (bit : Nat → Bool) {count j : Nat} (n : Nat) (hfit : j + n ≤ count) :
    (bitRunEvents m count j ((List.range' j n).map fun a => .seqPut (bit a))).filter Event.isAccess =
      (List.range' j n).flatMap fun a => [.read a (m.read a), .write a (setLsb (m.read a) (bit a))] := by
  induction n generalizing j with
  | zero => rfl
  | succ n ih =>
    rw [List.range'_succ, List.map_cons, List.flatMap_cons, bitRunEvents, List.filter_append, ih (by omega),
      bitCommandEvents_seqPut _ _ (by omega)]
    rfl

/-- The accesses of a completed `EMBED v` (rule R100). -/
theorem State.accesses_unitEvents {s : State} (h : 8 ≤ s.sampleCount) (v : Byte) :
    (s.unitEvents v).filter Event.isAccess =
      unitPositions.flatMap fun i => [.read i (s.mem.read i), .write i (setLsb (s.mem.read i) (unitBit v i))] :=
  accesses_bitRunEvents_seqPut s.mem (unitBit v) 8 (by omega)

/-- The samples a completed `EMBED v` leaves (rules R100 and R101). -/
theorem State.read_unitMemory_of_le {s : State} (h : 8 ≤ s.sampleCount) (v : Byte) (a : Nat) :
    (s.unitMemory v).read a = if a < 8 then setLsb (s.mem.read a) (unitBit v a) else s.mem.read a := by
  rw [State.read_unitMemory, setLsb_eq_or]
  by_cases ha : a < 8
  · rw [if_pos ha, if_pos ⟨ha, by omega⟩]
    rfl
  · rw [if_neg ha, if_neg fun hboth => ha hboth.1]

/-- Settles O24: `EMBED` is the run of its 8 bits, whose accesses and samples are known, or one response. -/
theorem embedWritesThePayloadUnit : Obligations.EmbedWritesThePayloadUnit := by
  intro v
  refine ⟨commandWord_eq_or 0x20 (v.setWidth 16), fun s => ?_⟩
  by_cases hlt : s.sampleCount < 8
  · rw [if_pos hlt, exec_embed, if_pos hlt]
    rfl
  · rw [if_neg hlt]
    have hle : 8 ≤ s.sampleCount := Nat.le_of_not_lt hlt
    refine ⟨_, fun i => setLsb (s.mem.read i) (unitBit v i), exec_embed_of_le hle v, fun i => setLsb_eq_or _ _,
      State.read_unitMemory_of_le hle v, ?_, State.placeWalk_pos_of_le hle,
      State.placeWalk_form (Nat.zero_lt_of_lt hle) hle, State.placeWalk_eight_exhausted hle⟩
    rw [State.accesses_unitEvents hle, List.append_assoc]
    rfl

/-- Rule R102: replacing bit 0 keeps bits 7:1. -/
theorem setLsb_upper (sample : Byte) (b : Bool) : setLsb sample b &&& 0xFE = sample &&& 0xFE := by
  rw [setLsb_eq_or, BitVec.and_or_distrib_right]
  cases b <;> simp [BitVec.and_assoc]

/-- A bit of a byte as a number. -/
theorem toNat_getLsbD (v : Byte) (k : Nat) : (v.getLsbD k).toNat = v.toNat / 2 ^ k % 2 := Nat.toNat_testBit _ _

theorem toNat_lsb (sample : Byte) : (lsb sample).toNat = sample.toNat % 2 := by
  rw [lsb, toNat_getLsbD, Nat.pow_zero, Nat.div_one]

/-- Rule R102: a sample changes by one exactly when the bit written differs from its own. -/
theorem setLsb_cases (sample : Byte) (b : Bool) :
    setLsb sample b = sample ∨
    (sample.toNat % 2 = 0 ∧ b = true ∧ (setLsb sample b).toNat = sample.toNat + 1) ∨
    (sample.toNat % 2 = 1 ∧ b = false ∧ (setLsb sample b).toNat + 1 = sample.toNat) := by
  have hsum := toNat_setLsb sample b
  have hmod := toNat_lsb sample
  cases hold : lsb sample <;> cases b <;> rw [hold] at hsum hmod
  · exact .inl (BitVec.eq_of_toNat_eq hsum)
  · exact .inr (.inl ⟨hmod.symm, rfl, hsum⟩)
  · exact .inr (.inr ⟨hmod.symm, rfl, hsum⟩)
  · exact .inl (BitVec.eq_of_toNat_eq (Nat.add_right_cancel hsum))

/-- Settles O26: the samples are those of `State.read_unitMemory_of_le`, each of them by `setLsb_upper` and
`setLsb_cases`. -/
theorem embedChangesEachSampleByAtMostOne : Obligations.EmbedChangesEachSampleByAtMostOne := by
  intro v s t h
  constructor
  · intro hlt
    rw [exec_embed_of_lt hlt] at h
    cases h
    rfl
  · intro hle
    rw [exec_embed_of_le hle] at h
    cases h
    refine ⟨fun a ha => ?_, fun a ha => ?_⟩
    · exact (State.read_unitMemory_of_le hle v a).trans (if_neg (Nat.not_lt.mpr ha))
    · have hread := (State.read_unitMemory_of_le hle v a).trans (if_pos ha)
      rw [State.placeWalk_mem, State.record_mem, hread]
      exact ⟨setLsb_upper _ _, setLsb_cases _ _⟩

/-! ### The value of `EXTRACT` -/

/-- One step of assembling: the new bit below, the old ones one place up. -/
theorem getLsbD_shiftIn (acc : Byte) (b : Bool) {k : Nat} (hk : k < 8) :
    (shiftIn acc b).getLsbD k = if k = 0 then b else acc.getLsbD (k - 1) := by
  have hmask : shiftIn acc b = (acc <<< 1) ||| (BitVec.ofBool b).setWidth 8 := BitVec.and_allOnes
  rw [hmask, BitVec.getLsbD_or, BitVec.getLsbD_shiftLeft, BitVec.getLsbD_setWidth, BitVec.getLsbD_ofBool]
  cases k <;> simp [hk]

/-- After `n` samples the last one's low bit is lowest, and `acc` stands `n` places up. -/
theorem getLsbD_shiftInBits (m : Memory) (acc : Byte) (j n : Nat) {k : Nat} (hk : k < 8) :
    (shiftInBits m acc j n).getLsbD k = if k < n then lsb (m.read (j + (n - 1 - k))) else acc.getLsbD (k - n) := by
  induction n generalizing acc j with
  | zero => rfl
  | succ n ih =>
    rw [shiftInBits_succ, ih]
    rcases Nat.lt_trichotomy k n with h | rfl | h
    · rw [if_pos h, if_pos (by omega), show j + 1 + (n - 1 - k) = j + (n + 1 - 1 - k) by omega]
    · rw [if_neg (by omega), if_pos (by omega), getLsbD_shiftIn _ _ (by omega)]
      simp
    · rw [if_neg (by omega), if_neg (by omega), getLsbD_shiftIn _ _ (by omega), if_neg (by omega), Nat.sub_sub]

/-- Rule R104: the value `EXTRACT` gives in frame memory `m`. -/
def Memory.extracted (m : Memory) : Byte := shiftInBits m 0 0 8

theorem Memory.unitBit_extracted (m : Memory) {i : Nat} (hi : i < 8) : unitBit m.extracted i = lsb (m.read i) := by
  rw [unitBit, Memory.extracted, getLsbD_shiftInBits m 0 0 8 (by omega), if_pos (by omega)]
  congr 2
  omega

/-- A Payload Unit is determined by its 8 bits. -/
theorem eq_of_unitBit_eq {v u : Byte} (h : ∀ i, i < 8 → unitBit v i = unitBit u i) : v = u := by
  apply BitVec.eq_of_getLsbD_eq
  intro k hk
  have hbit := h (7 - k) (by omega)
  rwa [unitBit, unitBit, Nat.sub_sub_self (Nat.le_of_lt_succ hk)] at hbit

/-- Rule R105: the value is the Payload Unit whose bits are the 8 low bits, whatever else the frame holds. -/
theorem Memory.extracted_eq {m : Memory} {v : Byte} (h : ∀ a, a < 8 → lsb (m.read a) = unitBit v a) :
    m.extracted = v :=
  eq_of_unitBit_eq fun i hi => (m.unitBit_extracted hi).trans (h i hi)

/-- The `n` lowest bits of a byte as a number. -/
theorem toNat_mod_two_pow_eq_sum (v : Byte) (n : Nat) :
    v.toNat % 2 ^ n = ((List.range n).map fun k => (v.getLsbD k).toNat * 2 ^ k).sum := by
  induction n with
  | zero => exact Nat.mod_one _
  | succ n ih => rw [List.sum_range_succ, ← ih, Nat.mod_pow_succ, toNat_getLsbD, Nat.mul_comm]

/-- A Payload Unit as a number, from its bits in the order they are handled. -/
theorem toNat_eq_sum_unitBit (v : Byte) :
    v.toNat = ((List.range 8).map fun i => (unitBit v i).toNat * 2 ^ (7 - i)).sum :=
  calc v.toNat = v.toNat % 2 ^ 8 := (Nat.mod_eq_of_lt v.isLt).symm
    _ = ((List.range 8).map fun k => (v.getLsbD k).toNat * 2 ^ k).sum := toNat_mod_two_pow_eq_sum v 8
    _ = ((List.range 8).map fun k => (v.getLsbD k).toNat * 2 ^ k).reverse.sum := (List.sum_reverse _).symm

theorem Memory.toNat_extracted (m : Memory) :
    m.extracted.toNat = ((List.range 8).map fun i => ((m.read i).getLsbD 0).toNat * 2 ^ (7 - i)).sum := by
  rw [toNat_eq_sum_unitBit]
  refine congrArg List.sum (List.map_congr_left fun i hi => ?_)
  rw [m.unitBit_extracted (List.mem_range.mp hi), lsb]

/-- Rule R104 with 8 samples or more, by the value it gives. -/
theorem exec_extract_extracted {s : State} (h : 8 ≤ s.sampleCount) :
    exec .extract s =
      .next (((s.setData s.mem.extracted).record s.mem
        (readEvents s.mem 0 8 ++ [.respond (s.mem.extracted.setWidth 32)])).placeWalk 8) := by
  rw [exec_extract_of_le h, responseWord_ok_byte]
  rfl

/-- Settles O25: `EXTRACT` is the run of 8 reads, whose value is the sum of its bits, or one response. -/
theorem extractReadsThePayloadUnit : Obligations.ExtractReadsThePayloadUnit := by
  refine ⟨rfl, fun s => ?_⟩
  by_cases hlt : s.sampleCount < 8
  · rw [if_pos hlt, exec_extract, if_pos hlt]
    rfl
  · rw [if_neg hlt]
    have hle : 8 ≤ s.sampleCount := Nat.le_of_not_lt hlt
    refine ⟨_, s.mem.extracted, exec_extract_extracted hle, s.mem.toNat_extracted, ?_, State.placeWalk_pos_of_le hle,
      State.placeWalk_form (Nat.zero_lt_of_lt hle) hle⟩
    rw [List.append_assoc]
    rfl

/-- The last response and `DATA` of a completed `EXTRACT`. -/
theorem exec_extract_answers {s : State} (h : 8 ≤ s.sampleCount) :
    ∃ t, exec .extract s = .next t ∧ t.data = s.mem.extracted ∧
      t.trace.getLast? = some (.respond (s.mem.extracted.setWidth 32)) := by
  refine ⟨_, exec_extract_extracted h, rfl, ?_⟩
  rw [State.placeWalk_trace, State.record_trace, ← List.append_assoc, List.getLast?_concat]

theorem exec_extract_mem {s t : State} (h : exec .extract s = .next t) : t.mem = s.mem := by
  rcases Nat.lt_or_ge s.sampleCount 8 with hlt | hle
  · rw [exec_extract_of_lt hlt] at h
    cases h
    rfl
  · rw [exec_extract_of_le hle] at h
    cases h
    rfl

/-- Settles O28: two memories that agree in the 8 low bits give one value. -/
theorem extractDependsOnEightLowBitsAlone : Obligations.ExtractDependsOnEightLowBitsAlone := by
  refine fun s s' t h => ⟨exec_extract_mem h, fun hle hle' hagree => ?_⟩
  have hsame : s'.mem.extracted = s.mem.extracted :=
    Memory.extracted_eq fun a ha => (hagree a ha).trans (s.mem.unitBit_extracted ha).symm
  obtain ⟨_, hexec, hdata, hlast⟩ := exec_extract_answers hle
  obtain ⟨t', hexec', hdata', hlast'⟩ := exec_extract_answers hle'
  cases h.symm.trans hexec
  exact ⟨t', hexec', by rw [hdata', hdata, hsame], by rw [hlast', hlast, hsame]⟩

/-- `N()` is a function of the three extents. -/
theorem State.sampleCount_congr {s s' : State} (h : s'.h = s.h ∧ s'.w = s.w ∧ s'.c = s.c) :
    s'.sampleCount = s.sampleCount := by
  obtain ⟨hh, hw, hc⟩ := h
  rw [State.sampleCount, State.sampleCount, hh, hw, hc]

/-- Settles O29: the 8 low bits that `EMBED v` leaves are the bits of `v`, and `EXTRACT` assembles them. -/
theorem extractAfterEmbedAnswersTheUnit : Obligations.ExtractAfterEmbedAnswersTheUnit := by
  refine fun v s hle => ⟨_, exec_embed_of_le hle v, fun s' hshape hsame => ?_⟩
  have hvalue : s'.mem.extracted = v := Memory.extracted_eq fun a ha =>
    calc lsb (s'.mem.read a) = lsb ((s.unitMemory v).read a) := congrArg lsb (hsame a ha)
      _ = lsb (setLsb (s.mem.read a) (unitBit v a)) := by rw [State.read_unitMemory_of_le hle, if_pos ha]
      _ = unitBit v a := lsb_setLsb _ _
  have hle' : 8 ≤ s'.sampleCount := hle.trans_eq (State.sampleCount_congr hshape).symm
  have hanswers := exec_extract_answers hle'
  rwa [hvalue] at hanswers

/-! ### What the Frame Codec does not depend on -/

/-- A command of the Frame Codec, in every state of one shape and one frame memory: the memory it leaves, what it shows
and where its walk stands are the same. -/
theorem exec_frameCodec_record {i : Instr} (hi : i = .extract ∨ ∃ v, i = .embed v) (s : State) :
    ∃ (m : Memory) (es : List Event) (k : Nat), (8 ≤ s.sampleCount → k = 8) ∧
      ∀ s' : State, s'.sampleCount = s.sampleCount → s'.mem = s.mem →
        ∃ u : State, exec i s' = .next ((u.record m es).placeWalk k) ∧ u.sampleCount = s'.sampleCount ∧
          u.trace = s'.trace := by
  rcases Nat.lt_or_ge s.sampleCount 8 with hlt | hle
  · refine ⟨s.mem, [.respond 0x20000000], 0, fun hle => absurd hlt (Nat.not_lt.mpr hle), fun s' hcount hmem => ?_⟩
    rw [← hcount] at hlt
    rw [← hmem]
    refine ⟨s'.setEIfb, ?_, rfl, rfl⟩
    rcases hi with rfl | ⟨v, rfl⟩
    · exact exec_extract_of_lt hlt
    · exact exec_embed_of_lt hlt v
  · rcases hi with rfl | ⟨v, rfl⟩
    · refine ⟨s.mem, readEvents s.mem 0 8 ++ [.respond (s.mem.extracted.setWidth 32)], 8, fun _ => rfl,
        fun s' hcount hmem => ?_⟩
      rw [← hmem]
      exact ⟨s'.setData s'.mem.extracted, exec_extract_extracted (hle.trans_eq hcount.symm), rfl, rfl⟩
    · refine ⟨s.unitMemory v, (s.unitEvents v).filter Event.isAccess ++ [.respond 0], 8, fun _ => rfl,
        fun s' hcount hmem => ?_⟩
      rw [State.unitMemory, State.unitEvents, ← hmem, ← hcount]
      exact ⟨s'.setData v, exec_embed_of_le (hle.trans_eq hcount.symm) v, rfl, rfl⟩

/-- Settles O32: both states record the same memory and the same events, and the walk stands at the same position. -/
theorem frameCodecForgetsWhatCameBefore : Obligations.FrameCodecForgetsWhatCameBefore := by
  intro i s s' hi ⟨hh, hw, hc, hmem⟩
  have hsame := State.sampleCount_congr ⟨hh, hw, hc⟩
  obtain ⟨m, es, k, hk, hrecord⟩ := exec_frameCodec_record hi s
  obtain ⟨u, hexec, hcount, htrace⟩ := hrecord s rfl rfl
  obtain ⟨u', hexec', hcount', htrace'⟩ := hrecord s' hsame hmem
  refine ⟨_, _, hexec, hexec', rfl, ?_, fun hle => ?_⟩
  · rw [eventsSince, ← htrace', eventsSince, ← htrace]
    exact (eventsSince_record_placeWalk u' m es k).trans (eventsSince_record_placeWalk u m es k).symm
  · obtain rfl := hk hle
    exact ⟨State.placeWalk_pos_of_le (by rwa [State.record_sampleCount, hcount]),
      State.placeWalk_pos_of_le (by rwa [State.record_sampleCount, hcount', hsame])⟩

end Sys2Proof.Machine
end

section
/-! SUPPORT. Configuration and register access: the frame a shape command leaves (rules R120 to R122), the words that
`RDREG` refuses and the number that `STATUS` reads as (rule R124). -/

namespace Sys2Proof.Machine

/-! ### The shape commands -/

/-- Rule R18 at the beginning of a walk: `EXH` reads 1 exactly in an empty frame. -/
theorem getLsbD_statusWord_respond_restartWalk (status : StatusCode) (data : Half) (s : State) :
    (respond status data (restartWalk s)).statusWord.getLsbD 0 = decide (s.sampleCount = 0) := by
  have hpos : (respond status data (restartWalk s)).pos = 0 := State.walkAtStart.pos_eq ⟨rfl, rfl, rfl⟩
  rw [State.getLsbD_statusWord_zero, State.exhausted, hpos]
  exact decide_eq_decide.mpr Nat.le_zero

/-- Settles O11: each shape command is one extent update, a restarted walk and the answer `OK`. -/
theorem shapeCommandsSetOneExtentAndRestartTheWalk : Obligations.ShapeCommandsSetOneExtentAndRestartTheWalk := by
  refine fun n => ⟨commandWord_eq_or 0x01 n, commandWord_eq_or 0x02 n, commandWord_eq_or 0x03 n, fun s => ⟨?_, ?_, ?_⟩⟩
  · exact ⟨_, exec_seth n s, rfl, getLsbD_statusWord_respond_restartWalk .ok 0 (s.setH n)⟩
  · exact ⟨_, exec_setw n s, rfl, getLsbD_statusWord_respond_restartWalk .ok 0 (s.setW n)⟩
  · exact ⟨_, exec_setc n s, rfl, getLsbD_statusWord_respond_restartWalk .ok 0 (s.setC n)⟩

/-! ### Reading a register -/

/-- An index of 8 or more has a one among the operand bits that `RDREG` must find zero. -/
theorem operandBits_ne_zero_of_le {imm : Half} (h : 8 ≤ imm.toNat) : imm.extractLsb' 3 13 ≠ 0#13 := by
  intro hzero
  have hbits : imm.toNat >>> 3 % 2 ^ 13 = 0 := BitVec.extractLsb'_toNat 3 13 imm ▸ congrArg BitVec.toNat hzero
  have hlt := imm.isLt
  rw [Nat.shiftRight_eq_div_pow] at hbits
  omega

/-- Rule R67, third kind, for the operation code of `RDREG`. -/
theorem decode_rdreg_operandBits {imm : Half} (h : imm.extractLsb' 3 13 ≠ 0#13) :
    decode (commandWord 0x08 imm) = .illegal .operandBitsNotZero := by
  simp [decode, Laws.rsvField_commandWord, Laws.opField_commandWord, Laws.immField_commandWord, h]

/-- Table T13: the value of each bit of `STATUS`. -/
theorem State.toNat_statusWord (s : State) :
    s.statusWord.toNat = s.exhausted.toNat + 2 * s.eIfb.toNat + 4 * s.eIll.toNat := by
  have hword : s.statusWord = ((BitVec.concat 0#13 s.eIll).concat s.eIfb).concat s.exhausted := rfl
  rw [hword, BitVec.toNat_concat, BitVec.toNat_concat, BitVec.toNat_concat, BitVec.toNat_zero]
  ring

/-- Rule R124: the answer is the register's value and only the trace grows. -/
theorem exec_rdreg_answers (r : Reg) (s : State) :
    exec (.rdreg r) s = .next { s with trace := s.trace ++ [.respond ((readReg s r).setWidth 32)] } := by
  rw [exec_rdreg, respond_eq, responseWord_ok]

/-- Settles O12: the answer is `readReg`, register by register the field of the state or the word `STATUS`. -/
theorem rdregAnswersTheRegister : Obligations.RdregAnswersTheRegister := by
  refine ⟨fun imm h => ?_, fun r s => ⟨?_, readReg s r, exec_rdreg_answers r s, ?_⟩⟩
  · have hword : commandWord 0x08 imm = 0x08000000 ||| imm.setWidth 32 := commandWord_eq_or 0x08 imm
    rw [← hword, decode_rdreg_operandBits (operandBits_ne_zero_of_le h)]
  · refine (commandWord_eq_or 0x08 (r.index.setWidth 16)).trans ?_
    rw [BitVec.setWidth_setWidth (by decide)]
    rfl
  · cases r with
    | h | w | c | row | col | ch | data => rfl
    | status => exact s.toNat_statusWord

end Sys2Proof.Machine
end

section
/-! SUPPORT. The Message Framer's embedding: a command that the host sends is performed (rule R60), one frame taken
through frame memory with and without a Payload Unit (rules R72 and R141), and the whole stream frame by frame (rules R137
to R139). -/

namespace Sys2Proof.Machine

/-! ### Sending a command -/

/-- Tables T6 and T9: the decoder finds the opcode and the operand where the encoder put them. -/
theorem decode_encode (i : Instr) : decode (encode i) = .command i := by
  cases i with
  | seth n | setw n | setc n =>
    simp [decode, encode, Laws.rsvField_commandWord, Laws.opField_commandWord, Laws.immField_commandWord]
  | rdreg r => cases r <;> decide
  | seqStart | seqGet | extract => decide
  | seqPut b => cases b <;> decide
  | embed v =>
    have hhigh : (v.setWidth 16).extractLsb' 8 8 = 0#8 := by
      ext k hk
      simp
    have hlow : (v.setWidth 16).extractLsb' 0 8 = v := by
      ext k hk
      simp [show k < 16 by omega, BitVec.getLsbD_eq_getElem hk]
    simp [decode, encode, Laws.rsvField_commandWord, Laws.opField_commandWord, Laws.immField_commandWord, hhigh, hlow]

/-- Sending a command is its meaning, after its word has been taken. -/
theorem drive_send {i : Instr} {s t : State} (he : exec i (s.emit (.command (encode i))) = .next t)
    (as : List HostAction) : drive (send i :: as) s = drive as t :=
  drive_command (decode_encode i) he as

/-- Rule R173: configuring sends the three shape commands, which set the shape and restart the walk. -/
theorem configure_eq (sh : Shape) (s : State) :
    configure sh s =
      { s with
        h := sh.h, w := sh.w, c := sh.c, row := 0, col := 0, ch := 0
        trace := s.trace ++ (setShapeCommands sh.h sh.w sh.c).flatMap fun i => [.command (encode i), .respond 0] } := by
  rw [configure, setShapeCommands, List.map_cons, List.map_cons, List.map_cons, List.map_nil,
    drive_send (exec_seth _ _), drive_send (exec_setw _ _), drive_send (exec_setc _ _)]
  simp [drive, respond_eq, responseWord_ok, restartWalk_eq, State.setH, State.setW, State.setC, State.emit]

theorem configure_sampleCount (sh : Shape) (s : State) : (configure sh s).sampleCount = sh.samples := by
  rw [configure_eq]
  rfl

/-- The word just sent is the one of the trace's last event. -/
theorem lastResponse_of_trace {s : State} {es : List Event} {w : Word} (h : s.trace = es ++ [.respond w]) :
    lastResponse s = some w := by
  rw [lastResponse, h, List.getLast?_concat]

/-! ### One frame through frame memory -/

/-- Rules R138 and R139: a frame with the bits of `v` in its first 8 low bits. -/
def Frame.withUnit (frame : Frame) (v : Byte) : Frame :=
  frame.mapIdx fun k x => if k < 8 then setLsb x (unitBit v k) else x

/-- What the sink gets for a frame and the unit it carries, if any. -/
def Frame.carrying (frame : Frame) : Option Byte → Frame
  | some v => frame.withUnit v
  | none => frame

/-- The block after the host has placed a frame of at least 8 samples and sent `EMBED v` (rules R100 and R141). -/
def State.afterPlaceAndEmbed (s : State) (frame : Frame) (v : Byte) : State :=
  let t := (hostLoad frame s).emit (.command (encode (.embed v)))
  ((t.setData v).record (t.unitMemory v) ((t.unitEvents v).filter Event.isAccess ++ [.respond 0])).placeWalk 8

@[simp] theorem State.afterPlaceAndEmbed_sampleCount (s : State) (frame : Frame) (v : Byte) :
    (s.afterPlaceAndEmbed frame v).sampleCount = s.sampleCount := by
  simp [State.afterPlaceAndEmbed, hostLoad]

/-- Taking samples back keeps the shape. -/
@[simp] theorem takeFrame_sampleCount (n : Nat) (s : State) : (takeFrame n s).2.sampleCount = s.sampleCount := by
  rw [takeFrame_eq]
  rfl

section
variable {s : State} (h : 8 ≤ s.sampleCount) (frame : Frame) (v : Byte)
include h

theorem drive_loadFrame_embed :
    drive [.loadFrame frame, send (.embed v)] s = s.afterPlaceAndEmbed frame v := by
  have hplaced : 8 ≤ ((hostLoad frame s).emit (.command (encode (.embed v)))).sampleCount := h
  rw [drive_loadFrame, drive_send (exec_embed_of_le hplaced v)]
  rfl

/-- Every sample is the one placed there, with a bit of the unit where it is one of the first 8 (rules R100 and R101). -/
theorem State.read_afterPlaceAndEmbed (a : Nat) :
    (s.afterPlaceAndEmbed frame v).mem.read a =
      if a < 8 then setLsb ((s.mem.load frame).read a) (unitBit v a) else (s.mem.load frame).read a :=
  have hplaced : 8 ≤ ((hostLoad frame s).emit (.command (encode (.embed v)))).sampleCount := h
  State.read_unitMemory_of_le hplaced v a

/-- Taken back, the frame carries the unit. -/
theorem State.read_afterPlaceAndEmbed_range :
    (List.range frame.length).map (s.afterPlaceAndEmbed frame v).mem.read = frame.withUnit v := by
  apply List.ext_getElem (by simp [Frame.withUnit])
  intro k hk _
  have hlt : k < frame.length := by simpa using hk
  have hload : (s.mem.load frame).read k = frame[k] := by simp [Memory.read_load, hlt]
  rw [List.getElem_map, List.getElem_range, State.read_afterPlaceAndEmbed h, hload]
  simp [Frame.withUnit]

/-- Rule R72: in a frame of at least 8 samples `embed_byte` succeeds, and what is taken back carries the unit. -/
theorem embedByte_eq :
    embedByte frame v s =
      (some (frame.withUnit v), (takeFrame frame.length (s.afterPlaceAndEmbed frame v)).2) := by
  have hresponse : lastResponse (s.afterPlaceAndEmbed frame v) = some 0 :=
    lastResponse_of_trace (List.append_assoc ..).symm
  rw [embedByte, drive_loadFrame_embed h, hresponse, takeFrame_eq, State.read_afterPlaceAndEmbed_range h]
  rfl

/-- Rule R141: every frame goes through frame memory, whether or not it carries a unit, and the shape stays. -/
theorem embedFrame_of_le (unit : Option Byte) :
    ∃ t, embedFrame unit frame s = (some (frame.carrying unit), t) ∧ t.sampleCount = s.sampleCount := by
  cases unit with
  | some v =>
    exact ⟨_, embedByte_eq h frame v, by simp⟩
  | none =>
    have hpass : embedFrame none frame s = (some (passFrame frame s).1, (passFrame frame s).2) := rfl
    rw [passFrame_fst] at hpass
    exact ⟨_, hpass, takeFrame_sampleCount ..⟩

end

/-! ### The stream -/

/-- Rules R133 and R138: position 0 carries the length, the next ones the bytes in order. -/
theorem unitAt_eq_getElem? (message : List Byte) (p : Nat) :
    unitAt message p = (BitVec.ofNat 8 message.length :: message)[p]? := by
  cases p <;> rfl

/-- Rules R138, R139 and R141, from any position on: every frame reaches the sink, in order, with the unit of its
position. -/
theorem embedFrames_of_le (message : List Byte) (frames : List Frame) (p : Nat) {s : State} (h : 8 ≤ s.sampleCount) :
    ∃ t, embedFrames message p frames s =
      (⟨frames.mapIdx fun k frame => frame.carrying (unitAt message (p + k)), none⟩, t) := by
  induction frames generalizing p s with
  | nil => exact ⟨s, rfl⟩
  | cons frame rest ih =>
    obtain ⟨t, hframe, hcount⟩ := embedFrame_of_le h frame (unitAt message p)
    obtain ⟨u, hrest⟩ := ih (p + 1) (h.trans_eq hcount.symm)
    refine ⟨u, ?_⟩
    rw [embedFrames, hframe]
    simp only [hrest, List.mapIdx_cons, Nat.add_zero, Nat.add_assoc, Nat.add_comm 1]

/-- Rule R137: the two limits on the length of a message. -/
theorem messageTooLong_iff (message : List Byte) (frames : List Frame) :
    messageTooLong message frames = true ↔ 255 < message.length ∨ frames.length < message.length + 1 := by
  rw [messageTooLong, maxPayloadBytes, decide_eq_true_iff]
  omega

/-- Settles O51: the check stands before the first use of the block. -/
theorem tooLongMessageIsRejectedFirst : Obligations.TooLongMessageIsRejectedFirst := by
  intro sh message frames s hlong
  rw [embedMessage, if_pos ((messageTooLong_iff message frames).mpr hlong)]

/-- Settles O52: the sink is the stream with each frame carrying the unit of its position, of which there are none after
the last byte of the message. -/
theorem embeddingForwardsEveryFrameInOrder : Obligations.EmbeddingForwardsEveryFrameInOrder := by
  intro sh message frames s hshape hlen hfit
  have hfits : ¬ messageTooLong message frames = true := by
    rw [messageTooLong_iff]
    omega
  obtain ⟨t, hrun⟩ := embedFrames_of_le message frames 0 (hshape.trans_eq (configure_sampleCount sh s).symm)
  refine ⟨t, _, (if_neg hfits).trans hrun, List.length_mapIdx, fun p unit frame hunit hframe => ?_, fun p hp => ?_⟩
  · refine ⟨frame.withUnit unit, ?_, List.length_mapIdx, fun k x hx => ?_⟩
    · rw [List.getElem?_mapIdx, hframe, Nat.zero_add, unitAt_eq_getElem?, hunit]
      rfl
    · rw [Frame.withUnit, List.getElem?_mapIdx, hx, ← setLsb_eq_or]
      rfl
  · have hnone : unitAt message p = none := by
      rw [unitAt_eq_getElem?, List.getElem?_eq_none (by rw [List.length_cons]; omega)]
    rw [List.getElem?_mapIdx, Nat.zero_add, hnone]
    exact Option.map_id'

end Sys2Proof.Machine
end

section
/-! SUPPORT. The exceptions: which commands raise `InsufficientFrameBits` (rule R150), that every other command answers
`OK` or `EOS` and leaves the sticky bits (rules R21 and R64), and a whole step that takes an exception (rule R156). -/

namespace Sys2Proof.Machine

/-! ### The command that raises `InsufficientFrameBits` -/

/-- A command of the Frame Codec, by its mnemonic or by its constructor. -/
theorem mnemonic_frameCodec_iff (i : Instr) :
    (i.mnemonic = .embed ∨ i.mnemonic = .extract) ↔ (i = .extract ∨ ∃ v, i = .embed v) := by
  cases i <;> simp [Instr.mnemonic]

/-- Rule R156, first column, for the command's meaning: no register but the walk and `E_IFB` changes, and no sample is
accessed. -/
theorem exec_frameCodec_of_lt {i : Instr} (hi : i = .extract ∨ ∃ v, i = .embed v) {s : State}
    (h : s.sampleCount < 8) :
    exec i s = .next { s with
      row := 0, col := 0, ch := 0, eIfb := true, trace := s.trace ++ [.respond 0x20000000] } := by
  rcases hi with rfl | ⟨v, rfl⟩
  · rw [exec_extract, if_pos h, raiseException_eq, restartWalk_eq]
  · rw [exec_embed, if_pos h, raiseException_eq, restartWalk_eq]

/-! ### The commands that raise nothing -/

/-- Table T7: the status stands in the four highest bits of a response. -/
theorem responseStatus_responseWord (status : StatusCode) (data : Half) :
    responseStatus (responseWord status data) = status.code := by
  apply BitVec.eq_of_getLsbD_eq
  intro k hk
  have hword : (responseWord status data).getLsbD (28 + k) = (status.code ++ 0#12).getLsbD (12 + k) := by
    rw [responseWord, BitVec.getLsbD_append, if_neg (by omega), show 28 + k - 16 = 12 + k by omega]
  rw [responseStatus, BitVec.getLsbD_extractLsb', decide_eq_true hk, Bool.true_and, hword, BitVec.getLsbD_append,
    if_neg (by omega), Nat.add_sub_cancel_left]

/-- Table T8: an answer `OK` or `EOS`, whatever its data, is not the answer of `InsufficientFrameBits`. -/
theorem responseWord_ne_ifb {status : StatusCode} (h : status = .ok ∨ status = .eos) (data : Half) :
    responseWord status data ≠ 0x20000000 := by
  intro hword
  have hcode : status.code = 2#4 := by rw [← responseStatus_responseWord status data, hword]; rfl
  rcases h with rfl | rfl <;> exact absurd hcode (by decide)

theorem getBit_sticky (s : State) : (getBit s).2.eIfb = s.eIfb ∧ (getBit s).2.eIll = s.eIll := by
  rw [getBit_eq_record]
  exact ⟨rfl, rfl⟩

theorem putBit_sticky (b : Bool) (s : State) : (putBit b s).2.eIfb = s.eIfb ∧ (putBit b s).2.eIll = s.eIll := by
  rw [putBit_eq_record]
  exact ⟨rfl, rfl⟩

/-- The command completed without an exception: its last event is an answer `OK` or `EOS`, and the sticky bits are as they
were. -/
def CompletedPlainly (s t : State) : Prop :=
  (∃ status data, (status = .ok ∨ status = .eos) ∧ t.trace.getLast? = some (.respond (responseWord status data))) ∧
  t.eIfb = s.eIfb ∧ t.eIll = s.eIll

/-- The last thing done is to respond, and what came before left the sticky bits. -/
theorem completedPlainly_respond {status : StatusCode} (h : status = .ok ∨ status = .eos) (data : Half) {s u : State}
    (hsticky : u.eIfb = s.eIfb ∧ u.eIll = s.eIll) : CompletedPlainly s (respond status data u) :=
  ⟨⟨status, data, h, List.getLast?_concat ..⟩, hsticky⟩

/-- Every command but `EMBED` and `EXTRACT` on a short frame completes without an exception. -/
theorem exec_completedPlainly {i : Instr} {s : State}
    (h : ¬ ((i.mnemonic = .embed ∨ i.mnemonic = .extract) ∧ s.sampleCount < 8)) :
    ∃ t, exec i s = .next t ∧ CompletedPlainly s t := by
  cases i with
  | seth | setw | setc | rdreg | seqStart => exact ⟨_, rfl, completedPlainly_respond (.inl rfl) _ ⟨rfl, rfl⟩⟩
  | seqGet =>
    rw [exec_seqGet]
    split
    · exact ⟨_, rfl, completedPlainly_respond (.inr rfl) _ ⟨rfl, rfl⟩⟩
    · exact ⟨_, rfl, completedPlainly_respond (.inl rfl) _ (getBit_sticky s)⟩
  | seqPut b =>
    rw [exec_seqPut]
    split
    · exact ⟨_, rfl, completedPlainly_respond (.inr rfl) _ ⟨rfl, rfl⟩⟩
    · exact ⟨_, rfl, completedPlainly_respond (.inl rfl) _ (putBit_sticky b s)⟩
  | embed v =>
    have hle : 8 ≤ s.sampleCount := Nat.le_of_not_lt fun hlt => h ⟨.inl rfl, hlt⟩
    have hok : Event.respond 0 = .respond (responseWord .ok 0) := rfl
    rw [exec_embed_of_le hle, hok, ← respond_record_placeWalk]
    exact ⟨_, rfl, completedPlainly_respond (.inl rfl) _ ⟨rfl, rfl⟩⟩
  | extract =>
    have hle : 8 ≤ s.sampleCount := Nat.le_of_not_lt fun hlt => h ⟨.inr rfl, hlt⟩
    rw [exec_extract_of_le hle, ← respond_record_placeWalk]
    exact ⟨_, rfl, completedPlainly_respond (.inl rfl) _ ⟨rfl, rfl⟩⟩

/-- Settles O34: the Frame Codec on a short frame raises the exception, and everything else completes without one. -/
theorem insufficientFrameBitsExactlyOnShortFrames : Obligations.InsufficientFrameBitsExactlyOnShortFrames := by
  intro i s
  by_cases hshort : (i.mnemonic = .embed ∨ i.mnemonic = .extract) ∧ s.sampleCount < 8
  · obtain ⟨hcodec, hlt⟩ := hshort
    refine ⟨_, exec_frameCodec_of_lt ((mnemonic_frameCodec_iff i).mp hcodec) hlt, ?_, ?_, rfl⟩
    · exact iff_of_true (List.getLast?_concat ..) ⟨hcodec, hlt⟩
    · rw [decide_eq_true ⟨hcodec, hlt⟩, Bool.or_true]
  · obtain ⟨t, hexec, ⟨status, data, hstatus, hlast⟩, hifb, hill⟩ := exec_completedPlainly hshort
    refine ⟨t, hexec, iff_of_false (fun hanswer => ?_) hshort, ?_, hill⟩
    · rw [hlast, Option.some_inj, Event.respond.injEq] at hanswer
      exact responseWord_ne_ifb hstatus data hanswer
    · rw [decide_eq_false hshort, Bool.or_false, hifb]

/-! ### A whole step -/

/-- Rule R10: a step on a command word is the command's meaning, after the word has been taken. -/
theorem step_of_command {s : State} {w : Word} {rest : List HostAction} {i : Instr}
    (hp : s.pending = .command w :: rest) (hd : decode w = .command i) :
    step s = exec i (takeCommand w rest s) := by
  simp [step, performWord, hp, hd]

/-- Settles O35: taking the word reaches the port alone, and then the exception is all that happens. -/
theorem exceptionEntryChangesOnlyWhatTheTableShows : Obligations.ExceptionEntryChangesOnlyWhatTheTableShows := by
  refine fun s w rest hp => ⟨fun i hd hi hlt => ?_, fun why hd => ?_⟩
  · have htaken : (takeCommand w rest s).sampleCount < 8 := hlt
    rw [step_of_command hp hd, exec_frameCodec_of_lt hi htaken, takeCommand_eq, List.append_assoc]
    rfl
  · obtain ⟨-, hstep⟩ := illegalWordIsRefusedAndAnswered w
    exact hstep s rest why hp hd

end Sys2Proof.Machine
end

section
/-! SUPPORT. Every command as one equation: what it does to the registers, its accesses to frame memory, its one response
(rules R10, R50 and R63). What every step keeps is then an induction over a list of accesses. -/

namespace Sys2Proof.Machine

/-! ### Accesses to frame memory -/

/-- One access of the block: yield the bit of the sample at an address, or yield it and overwrite it (rules R42, R43,
R50). -/
inductive Access where
  | get (address : Nat)
  | put (address : Nat) (bit : Bool)

/-- The address of an access. -/
def Access.address : Access → Nat
  | .get a | .put a _ => a

/-- What an access shows. -/
def Access.events (m : Memory) : Access → List Event
  | .get a => [.read a (m.read a)]
  | .put a b => [.read a (m.read a), .write a (setLsb (m.read a) b)]

/-- Frame memory after an access. -/
def Access.after (m : Memory) : Access → Memory
  | .get _ => m
  | .put a b => m.write a (setLsb (m.read a) b)

/-- What accesses show, one after the other. -/
def accessEvents (m : Memory) : List Access → List Event
  | [] => []
  | x :: rest => x.events m ++ accessEvents (x.after m) rest

/-- Frame memory after accesses, one after the other. -/
def accessMemory (m : Memory) : List Access → Memory
  | [] => m
  | x :: rest => accessMemory (x.after m) rest

/-- A run of reads changes no sample. -/
theorem accessMemory_map_get (m : Memory) (addresses : List Nat) : accessMemory m (addresses.map .get) = m := by
  induction addresses with
  | nil => rfl
  | cons a rest ih => exact ih

theorem accessEvents_map_get (m : Memory) (addresses : List Nat) :
    accessEvents m (addresses.map .get) = addresses.map fun a => .read a (m.read a) := by
  induction addresses with
  | nil => rfl
  | cons a rest ih => exact congrArg (_ :: ·) ih

/-- A run of `SEQ.PUT` inside the frame, without its responses, is a run of accesses (rule R108). -/
theorem bitRun_seqPut_eq_access (bit : Nat → Bool) {count j : Nat} (n : Nat) (m : Memory) (hfit : j + n ≤ count) :
    (bitRunEvents m count j ((List.range' j n).map fun a => .seqPut (bit a))).filter Event.isAccess =
      accessEvents m ((List.range' j n).map fun a => .put a (bit a)) ∧
    m.afterBitRun count j ((List.range' j n).map fun a => .seqPut (bit a)) =
      accessMemory m ((List.range' j n).map fun a => .put a (bit a)) := by
  induction n generalizing j m with
  | zero => exact ⟨rfl, rfl⟩
  | succ n ih =>
    have hj : j < count := by omega
    obtain ⟨hevents, hmemory⟩ := ih (j := j + 1) (m.write j (setLsb (m.read j) (bit j))) (by omega)
    rw [← Memory.afterBitCommand_seqPut m (bit j) hj] at hevents hmemory
    rw [bitRunEvents_afterBitCommand] at hevents
    rw [List.range'_succ, List.map_cons, List.map_cons, bitRunEvents, List.filter_append, hevents,
      bitCommandEvents_seqPut _ _ hj, Memory.afterBitRun, hmemory, Memory.afterBitCommand_seqPut _ _ hj]
    exact ⟨rfl, rfl⟩

/-! ### What a command does -/

/-- The accesses of a command, in order: one at the walk's position before the end of the sequence, or eight at Bit
Positions 0 to 7 where the frame has them. -/
def State.accessesOf (s : State) (i : Instr) : List Access :=
  match i with
  | .seqGet => if s.exhausted then [] else [.get s.pos]
  | .seqPut b => if s.exhausted then [] else [.put s.pos b]
  | .embed v => if s.sampleCount < 8 then [] else unitPositions.map fun a => .put a (unitBit v a)
  | .extract => if s.sampleCount < 8 then [] else unitPositions.map .get
  | .seth _ | .setw _ | .setc _ | .rdreg _ | .seqStart => []

/-- The registers a command leaves: the state with frame memory and trace as they were. -/
def State.registersAfter (s : State) (i : Instr) : State :=
  match i with
  | .seth n => restartWalk (s.setH n)
  | .setw n => restartWalk (s.setW n)
  | .setc n => restartWalk (s.setC n)
  | .rdreg _ => s
  | .seqStart => restartWalk s
  | .seqGet | .seqPut _ => if s.exhausted then s else advance s
  | .embed v => if s.sampleCount < 8 then restartWalk s.setEIfb else (s.setData v).placeWalk 8
  | .extract => if s.sampleCount < 8 then restartWalk s.setEIfb else (s.setData s.mem.extracted).placeWalk 8

/-- The status of a command's response (table T8). -/
def State.statusOf (s : State) (i : Instr) : StatusCode :=
  match i with
  | .seqGet | .seqPut _ => if s.exhausted then .eos else .ok
  | .embed _ | .extract => if s.sampleCount < 8 then .ifb else .ok
  | .seth _ | .setw _ | .setc _ | .rdreg _ | .seqStart => .ok

/-- The data of a command's response (table T7). -/
def State.answerTo (s : State) (i : Instr) : Half :=
  match i with
  | .rdreg r => readReg s r
  | .seqGet | .seqPut _ => if s.exhausted then 0 else bitData (lsb (s.mem.read s.pos))
  | .extract => if s.sampleCount < 8 then 0 else s.mem.extracted.setWidth 16
  | .seth _ | .setw _ | .setc _ | .seqStart | .embed _ => 0

/-- The state in which a command completes: its registers, its accesses, its one response. -/
def State.afterCommand (s : State) (i : Instr) : State :=
  (s.registersAfter i).record (accessMemory s.mem (s.accessesOf i))
    (accessEvents s.mem (s.accessesOf i) ++ [.respond (responseWord (s.statusOf i) (s.answerTo i))])

/-- A response without accesses. -/
theorem respond_eq_record (status : StatusCode) (data : Half) (s : State) :
    respond status data s = s.record s.mem [.respond (responseWord status data)] := rfl

/-- One access before the end, on a walk of any form (rules R83 and R84). -/
theorem getBit_eq_access (s : State) :
    getBit s = (lsb (s.mem.read s.pos),
      (advance s).record (accessMemory s.mem [.get s.pos]) (accessEvents s.mem [.get s.pos])) := by
  rw [getBit_eq]
  conv_rhs => rw [advance_eq]
  conv_lhs => rw [advance_eq]
  rfl

theorem putBit_eq_access (b : Bool) (s : State) :
    putBit b s = (lsb (s.mem.read s.pos),
      (advance s).record (accessMemory s.mem [.put s.pos b]) (accessEvents s.mem [.put s.pos b])) := by
  rw [putBit_eq]
  simp [State.record, State.emit, State.setMem, accessMemory, accessEvents, Access.after, Access.events]

theorem respond_record (status : StatusCode) (data : Half) (s : State) (m : Memory) (es : List Event) :
    respond status data (s.record m es) = s.record m (es ++ [.respond (responseWord status data)]) := by
  rw [respond_eq_record, State.record_record, State.record_mem]

/-- Every command, in every state, completes in `afterCommand`. -/
theorem exec_eq (i : Instr) (s : State) : exec i s = .next (s.afterCommand i) := by
  cases i with
  | seth | setw | setc | rdreg | seqStart => rfl
  | seqGet =>
    rw [exec_seqGet, getBit_eq_access, respond_record]
    unfold State.afterCommand State.registersAfter State.accessesOf State.statusOf State.answerTo
    cases s.exhausted <;> rfl
  | seqPut b =>
    rw [exec_seqPut, putBit_eq_access, respond_record]
    unfold State.afterCommand State.registersAfter State.accessesOf State.statusOf State.answerTo
    cases s.exhausted <;> rfl
  | embed v =>
    unfold State.afterCommand State.registersAfter State.accessesOf State.statusOf State.answerTo
    by_cases h : s.sampleCount < 8
    · rw [exec_embed, if_pos h]
      simp only [if_pos h]
      rfl
    · have hle := Nat.le_of_not_lt h
      obtain ⟨hevents, hmemory⟩ := bitRun_seqPut_eq_access (unitBit v) 8 s.mem (by omega : 0 + 8 ≤ s.sampleCount)
      have hbits : (unitBits v).map Instr.seqPut = (List.range' 0 8).map fun a => .seqPut (unitBit v a) := rfl
      rw [exec_embed_of_le hle, State.unitMemory, State.unitEvents, hbits, hevents, hmemory]
      simp only [if_neg h]
      rfl
  | extract =>
    unfold State.afterCommand State.registersAfter State.accessesOf State.statusOf State.answerTo
    by_cases h : s.sampleCount < 8
    · rw [exec_extract, if_pos h]
      simp only [if_pos h]
      rfl
    · rw [exec_extract_of_le (Nat.le_of_not_lt h)]
      simp only [if_neg h, accessMemory_map_get, accessEvents_map_get]
      rfl

end Sys2Proof.Machine
end

section
/-! SUPPORT. What every command and every step keeps: the registers of table T2, the sticky bits (rule R21), the form of
the walk (rule R15), frame memory (rules R5 and R44) and the trace (rules R10, R53 and R63). -/

namespace Sys2Proof.Machine

/-! ### The fields in which a command completes -/

/-- No command touches `E_ILL`, the host's actions or, but for its own events, the trace. -/
theorem State.registersAfter_keeps (s : State) (i : Instr) :
    (s.registersAfter i).trace = s.trace ∧ (s.registersAfter i).pending = s.pending ∧
    (s.registersAfter i).eIll = s.eIll := by
  cases i with
  | seth | setw | setc | rdreg | seqStart => exact ⟨rfl, rfl, rfl⟩
  | seqGet | seqPut =>
    simp only [State.registersAfter]
    split
    · exact ⟨rfl, rfl, rfl⟩
    · rw [advance_eq]
      exact ⟨rfl, rfl, rfl⟩
  | embed | extract => simp only [State.registersAfter]; split <;> exact ⟨rfl, rfl, rfl⟩

@[simp] theorem State.afterCommand_mem (s : State) (i : Instr) :
    (s.afterCommand i).mem = accessMemory s.mem (s.accessesOf i) := rfl

@[simp] theorem State.afterCommand_pending (s : State) (i : Instr) : (s.afterCommand i).pending = s.pending :=
  have ⟨_, hpending, _⟩ := s.registersAfter_keeps i
  hpending

@[simp] theorem State.afterCommand_eIll (s : State) (i : Instr) : (s.afterCommand i).eIll = s.eIll :=
  have ⟨_, _, hill⟩ := s.registersAfter_keeps i
  hill

@[simp] theorem State.afterCommand_trace (s : State) (i : Instr) :
    (s.afterCommand i).trace =
      s.trace ++ (accessEvents s.mem (s.accessesOf i) ++ [.respond (responseWord (s.statusOf i) (s.answerTo i))]) := by
  obtain ⟨htrace, -, -⟩ := s.registersAfter_keeps i
  rw [State.afterCommand, State.record_trace, htrace]

theorem eventsSince_afterCommand (s : State) (i : Instr) :
    eventsSince s (s.afterCommand i) =
      accessEvents s.mem (s.accessesOf i) ++ [.respond (responseWord (s.statusOf i) (s.answerTo i))] := by
  rw [eventsSince, State.afterCommand_trace, List.drop_left]

/-- A completed command, from what `exec` gives. -/
theorem eq_afterCommand {i : Instr} {s t : State} (h : exec i s = .next t) : t = s.afterCommand i := by
  rw [exec_eq] at h
  cases h
  rfl

/-- `E_IFB` rises exactly with the response `IFB`. -/
theorem State.afterCommand_eIfb (s : State) (i : Instr) :
    (s.afterCommand i).eIfb = (s.eIfb || decide (s.statusOf i = .ifb)) := by
  show (s.registersAfter i).eIfb = _
  cases i with
  | seth | setw | setc | rdreg | seqStart => exact (Bool.or_false _).symm
  | seqGet | seqPut =>
    simp only [State.registersAfter, State.statusOf]
    split
    · exact (Bool.or_false _).symm
    · rw [advance_eq]
      exact (Bool.or_false _).symm
  | embed | extract =>
    simp only [State.registersAfter, State.statusOf]
    split
    · exact (Bool.or_true _).symm
    · exact (Bool.or_false _).symm

theorem State.statusOf_eq_ifb_iff (s : State) (i : Instr) :
    s.statusOf i = .ifb ↔ (i.mnemonic = .embed ∨ i.mnemonic = .extract) ∧ s.sampleCount < 8 := by
  cases i <;> simp [State.statusOf, Instr.mnemonic, ite_eq_iff]

/-- Rule R64: no command answers `ILL`, and `EOS` and `IFB` carry no data. -/
theorem State.statusOf_ok_or (s : State) (i : Instr) :
    s.statusOf i = .ok ∨ (s.statusOf i = .eos ∨ s.statusOf i = .ifb) ∧ s.answerTo i = 0 := by
  cases i with
  | seth | setw | setc | rdreg | seqStart => exact .inl rfl
  | seqGet | seqPut =>
    simp only [State.statusOf, State.answerTo]
    split
    · exact .inr ⟨.inl rfl, rfl⟩
    · exact .inl rfl
  | embed v =>
    simp only [State.statusOf, State.answerTo]
    split
    · exact .inr ⟨.inr rfl, trivial⟩
    · exact .inl rfl
  | extract =>
    simp only [State.statusOf, State.answerTo]
    split
    · exact .inr ⟨.inr rfl, rfl⟩
    · exact .inl rfl

/-! ### The accesses of a command -/

/-- Rule R44: where a command accesses frame memory. -/
theorem State.accessesOf_address {s : State} {i : Instr} {x : Access} (h : x ∈ s.accessesOf i) :
    x.address < s.sampleCount ∧
    ((i.mnemonic = .seqGet ∨ i.mnemonic = .seqPut) ∧ x.address = s.pos ∨
     (i.mnemonic = .embed ∨ i.mnemonic = .extract) ∧ x.address ≤ 7 ∧ 8 ≤ s.sampleCount) := by
  have hunit : ∀ a ∈ unitPositions, a ≤ 7 := by decide
  cases i with
  | seth | setw | setc | rdreg | seqStart => cases h
  | seqGet | seqPut =>
    simp only [State.accessesOf] at h
    split at h
    next => cases h
    next hex =>
      obtain rfl := List.mem_singleton.mp h
      have hpos := (s.exhausted_eq_false_iff).mp (Bool.eq_false_of_not_eq_true hex)
      exact ⟨hpos, .inl ⟨by simp [Instr.mnemonic], rfl⟩⟩
  | embed | extract =>
    simp only [State.accessesOf] at h
    split at h
    next => cases h
    next hlt =>
      obtain ⟨a, ha, rfl⟩ := List.mem_map.mp h
      have hle := hunit a ha
      exact ⟨show a < s.sampleCount by omega, .inr ⟨by simp [Instr.mnemonic], hle, Nat.le_of_not_lt hlt⟩⟩

theorem State.length_accessesOf_le (s : State) (i : Instr) : (s.accessesOf i).length ≤ 8 := by
  cases i with
  | seth | setw | setc | rdreg | seqStart => exact Nat.zero_le 8
  | seqGet | seqPut | embed | extract => simp only [State.accessesOf]; split <;> simp [unitPositions]

/-- Every event of a run of accesses is an access at the address of one of them. -/
theorem accessAddress_of_mem {m : Memory} {xs : List Access} {e : Event} (h : e ∈ accessEvents m xs) :
    ∃ x ∈ xs, e.accessAddress = some x.address := by
  induction xs generalizing m with
  | nil => cases h
  | cons x rest ih =>
    rcases List.mem_append.mp h with hx | hrest
    · refine ⟨x, List.mem_cons_self, ?_⟩
      cases x with
      | get a =>
        obtain rfl := List.mem_singleton.mp hx
        rfl
      | put a b =>
        rcases List.mem_pair.mp hx with rfl | rfl <;> rfl
    · obtain ⟨y, hy, haddress⟩ := ih hrest
      exact ⟨y, List.mem_cons_of_mem x hy, haddress⟩

theorem Event.isAccess_of_accessAddress {e : Event} {a : Nat} (h : e.accessAddress = some a) : e.isAccess = true := by
  cases e with
  | read | write => rfl
  | _ => cases h

theorem isAccess_of_mem {m : Memory} {xs : List Access} {e : Event} (h : e ∈ accessEvents m xs) :
    e.isAccess = true := by
  obtain ⟨x, -, haddress⟩ := accessAddress_of_mem h
  exact Event.isAccess_of_accessAddress haddress

/-- An access shows one event or two. -/
theorem length_accessEvents_le (m : Memory) (xs : List Access) : (accessEvents m xs).length ≤ 2 * xs.length := by
  induction xs generalizing m with
  | nil => exact Nat.le_refl 0
  | cons x rest ih =>
    have hone : (x.events m).length ≤ 2 := by cases x <;> simp [Access.events]
    have hrest := ih (x.after m)
    rw [accessEvents, List.length_append, List.length_cons]
    omega

/-- Table T7: bits 27:16 of a response are zero. -/
theorem responseWord_middle (status : StatusCode) (data : Half) :
    (responseWord status data).extractLsb' 16 12 = 0 := by
  apply BitVec.eq_of_getLsbD_eq
  intro k hk
  have hword : (responseWord status data).getLsbD (16 + k) = (status.code ++ 0#12).getLsbD k := by
    rw [responseWord, BitVec.getLsbD_append, if_neg (by omega), Nat.add_sub_cancel_left]
  rw [BitVec.getLsbD_extractLsb', decide_eq_true hk, Bool.true_and, hword, BitVec.getLsbD_append, if_pos hk]
  rfl

/-- Settles O37: a command is its accesses, at most two events each, and one response. -/
theorem everyCommandEndsInOneResponse : Obligations.EveryCommandEndsInOneResponse := by
  refine fun i s => ⟨s.afterCommand i, accessEvents s.mem (s.accessesOf i),
    responseWord (s.statusOf i) (s.answerTo i), exec_eq i s, ?_, fun e he => isAccess_of_mem he, ?_,
    s.afterCommand_pending i, responseWord_middle _ _, ?_⟩
  · rw [State.afterCommand_trace, List.append_assoc]
  · exact (length_accessEvents_le _ _).trans (Nat.mul_le_mul_left 2 (s.length_accessesOf_le i))
  · rcases s.statusOf_ok_or i with hok | ⟨heos | hifb, hdata⟩
    · exact .inl (by rw [← responseStatus, responseStatus_responseWord, hok]; rfl)
    · exact .inr (.inl (by rw [heos, hdata]; rfl))
    · exact .inr (.inr (by rw [hifb, hdata]; rfl))

/-- Settles O38: every event of a command but its response is one of its accesses. -/
theorem accessesStayInsideTheFrame : Obligations.AccessesStayInsideTheFrame := by
  intro i s t h e he a ha
  rw [eq_afterCommand h, eventsSince_afterCommand] at he
  rcases List.mem_append.mp he with haccess | hresponse
  · obtain ⟨x, hx, haddress⟩ := accessAddress_of_mem haccess
    obtain rfl : x.address = a := Option.some_inj.mp (haddress.symm.trans ha)
    exact State.accessesOf_address hx
  · obtain rfl := List.mem_singleton.mp hresponse
    cases ha

/-! ### The registers a command changes -/

/-- Table T2, the shape and `DATA`: a register is as it was, or the command is the one that names its new value. -/
theorem State.registersAfter_cases (s : State) (i : Instr) :
    ((s.registersAfter i).h = s.h ∨ i = .seth (s.registersAfter i).h) ∧
    ((s.registersAfter i).w = s.w ∨ i = .setw (s.registersAfter i).w) ∧
    ((s.registersAfter i).c = s.c ∨ i = .setc (s.registersAfter i).c) ∧
    ((s.registersAfter i).data = s.data ∨
      (i = .embed (s.registersAfter i).data ∨ i = .extract) ∧ 8 ≤ s.sampleCount) := by
  cases i with
  | seth n => exact ⟨.inr rfl, .inl rfl, .inl rfl, .inl rfl⟩
  | setw n => exact ⟨.inl rfl, .inr rfl, .inl rfl, .inl rfl⟩
  | setc n => exact ⟨.inl rfl, .inl rfl, .inr rfl, .inl rfl⟩
  | rdreg | seqStart => exact ⟨.inl rfl, .inl rfl, .inl rfl, .inl rfl⟩
  | seqGet | seqPut =>
    simp only [State.registersAfter]
    split
    · exact ⟨.inl rfl, .inl rfl, .inl rfl, .inl rfl⟩
    · rw [advance_eq]
      exact ⟨.inl rfl, .inl rfl, .inl rfl, .inl rfl⟩
  | embed v =>
    simp only [State.registersAfter]
    split
    next => exact ⟨.inl rfl, .inl rfl, .inl rfl, .inl rfl⟩
    next hle => exact ⟨.inl rfl, .inl rfl, .inl rfl, .inr ⟨.inl rfl, Nat.le_of_not_lt hle⟩⟩
  | extract =>
    simp only [State.registersAfter]
    split
    next => exact ⟨.inl rfl, .inl rfl, .inl rfl, .inl rfl⟩
    next hle => exact ⟨.inl rfl, .inl rfl, .inl rfl, .inr ⟨.inr trivial, Nat.le_of_not_lt hle⟩⟩

/-- Table T4: only `SEQ.PUT` and `EMBED` write samples. -/
theorem State.accessMemory_accessesOf (s : State) {i : Instr} (hput : i.mnemonic ≠ .seqPut)
    (hembed : i.mnemonic ≠ .embed) : accessMemory s.mem (s.accessesOf i) = s.mem := by
  cases i with
  | seth | setw | setc | rdreg | seqStart => rfl
  | seqPut => exact absurd rfl hput
  | embed => exact absurd rfl hembed
  | seqGet => simp only [State.accessesOf]; split <;> rfl
  | extract =>
    simp only [State.accessesOf]
    split
    · rfl
    · exact accessMemory_map_get _ _

/-- Settles O40: field by field of the state in which the command completes. -/
theorem registersChangeOnlyAsTableT2Says : Obligations.RegistersChangeOnlyAsTableT2Says := by
  intro i s t hexec
  obtain rfl := eq_afterCommand hexec
  obtain ⟨hh, hw, hc, hdata⟩ := s.registersAfter_cases i
  refine ⟨hh.resolve_left, hw.resolve_left, hc.resolve_left, fun hwalk hrdreg => hwalk ?_, hdata.resolve_left,
    fun hmem => ?_, fun hifb => ?_, s.afterCommand_eIll i⟩
  · cases i with
    | rdreg => exact ⟨rfl, rfl, rfl⟩
    | _ => cases hrdreg
  · by_contra hneither
    obtain ⟨hput, hembed⟩ := not_or.mp hneither
    exact hmem (s.accessMemory_accessesOf hput hembed)
  · have hrises := s.afterCommand_eIfb i
    have hstatus : s.statusOf i = .ifb := by
      by_contra hne
      exact hifb (by rw [hrises, decide_eq_false hne, Bool.or_false])
    exact ⟨by rw [hrises, decide_eq_true hstatus, Bool.or_true], (s.statusOf_eq_ifb_iff i).mp hstatus⟩

/-! ### The sticky bits -/

/-- The walk moves on without a look at the sticky bits. -/
theorem advance_setSticky (s : State) (x y : Bool) :
    advance { s with eIfb := x, eIll := y } = { advance s with eIfb := x, eIll := y } := by
  rcases advance_cases s with ⟨h, r⟩ | ⟨h, h', r⟩ | ⟨h, h', r⟩ <;> rw [r]
  · exact if_neg h
  · exact (if_pos h).trans (if_neg h')
  · exact (if_pos h).trans (if_pos h')

/-- The other registers do not depend on the sticky bits either. -/
theorem State.registersAfter_setSticky (s : State) (i : Instr) (x y x' y' : Bool) :
    { State.registersAfter { s with eIfb := x, eIll := y } i with eIfb := x', eIll := y' } =
      { s.registersAfter i with eIfb := x', eIll := y' } := by
  cases i with
  | seth | setw | setc | rdreg | seqStart => rfl
  | seqGet | seqPut =>
    have hex : State.exhausted { s with eIfb := x, eIll := y } = s.exhausted := rfl
    simp only [State.registersAfter, hex, advance_setSticky]
    split <;> rfl
  | embed | extract =>
    have hcount : State.sampleCount { s with eIfb := x, eIll := y } = s.sampleCount := rfl
    simp only [State.registersAfter, hcount]
    split <;> rfl

/-- Only `RDREG 7` answers the sticky bits. -/
theorem State.answerTo_setSticky (s : State) {i : Instr} (h : i ≠ .rdreg .status) (x y : Bool) :
    State.answerTo { s with eIfb := x, eIll := y } i = s.answerTo i := by
  cases i with
  | rdreg r =>
    cases r with
    | status => exact absurd rfl h
    | h | w | c | row | col | ch | data => rfl
  | _ => rfl

/-- Settles O36: accesses, status and answer are the same, and so are the registers but for the sticky bits. -/
theorem stickyBitsGateNoCommand : Obligations.StickyBitsGateNoCommand := by
  refine fun i s x y hi => ⟨_, _, exec_eq i s, exec_eq i _, ?_⟩
  have hregisters := s.registersAfter_setSticky i x y (s.afterCommand i).eIfb (s.afterCommand i).eIll
  have hother : State.afterCommand { s with eIfb := x, eIll := y } i =
      (State.registersAfter { s with eIfb := x, eIll := y } i).record (accessMemory s.mem (s.accessesOf i))
        (accessEvents s.mem (s.accessesOf i) ++ [.respond (responseWord (s.statusOf i) (s.answerTo i))]) := by
    rw [← s.answerTo_setSticky hi x y]
    rfl
  rw [hother]
  exact congrArg (·.record (accessMemory s.mem (s.accessesOf i))
    (accessEvents s.mem (s.accessesOf i) ++ [.respond (responseWord (s.statusOf i) (s.answerTo i))])) hregisters.symm

/-- Settles O10: a command can only set them, an illegal word sets one, and the host does not reach them. -/
theorem onlyResetClearsStickyBits : Obligations.OnlyResetClearsStickyBits := by
  intro s t hstep hreset
  rcases step_cases hstep with ⟨-, rfl⟩ | ⟨w, rest, i, -, -, hexec⟩ | ⟨w, rest, why, -, -, rfl⟩ | ⟨rest, hp, -⟩ |
    ⟨a, rest, -, rfl⟩ | ⟨a, v, rest, -, rfl⟩ | ⟨samples, rest, -, rfl⟩
  · exact ⟨id, id⟩
  · obtain rfl := eq_afterCommand hexec
    rw [State.afterCommand_eIfb, State.afterCommand_eIll]
    exact ⟨fun h => by rw [show (takeCommand w rest s).eIfb = true from h, Bool.true_or], id⟩
  · exact ⟨id, fun _ => rfl⟩
  · exact absurd hp (hreset rest)
  · exact ⟨id, id⟩
  · exact ⟨id, id⟩
  · exact ⟨id, id⟩

end Sys2Proof.Machine
end

section
/-! SUPPORT. What every step keeps: the canonical form of frame memory, the form of the walk (rule R15), bits 7:1 of every
sample (rule R5), and the trace as a record of frame memory (rule R53), of the sticky bits (rule R21) and of the
conversation at the ports (rules R10, R52 and R63). -/

namespace Sys2Proof.Machine

/-! ### An invariant of a step -/

/-- `P` is kept by everything the block and the host do: a command completes after its word has been taken, an illegal word
is answered, the block is reset, the host reads, writes or loads frame memory. -/
structure KeptByEveryAction (P : State → Prop) : Prop where
  pending : ∀ (s : State) (p : List HostAction), P s → P (s.setPending p)
  command : ∀ (s : State) (w : Word) (i : Instr), P s → P ((s.emit (.command w)).afterCommand i)
  illegal : ∀ (s : State) (w : Word), P s → P (raiseException .illegalCommand (s.emit (.command w)))
  reset : ∀ s : State, P s → P (applyReset s)
  hostRead : ∀ (s : State) (a : Nat), P s → P (hostRead a s)
  hostWrite : ∀ (s : State) (a : Nat) (v : Byte), P s → P (hostWrite a v s)
  hostLoad : ∀ (s : State) (samples : List Byte), P s → P (hostLoad samples s)

/-- What every action keeps, every step keeps. -/
theorem KeptByEveryAction.step {P : State → Prop} (hP : KeptByEveryAction P) {s t : State} (hs : P s)
    (hstep : step s = .next t) : P t := by
  rcases step_cases hstep with ⟨-, rfl⟩ | ⟨w, rest, i, -, -, hexec⟩ | ⟨w, rest, why, -, -, rfl⟩ | ⟨rest, -, rfl⟩ |
    ⟨a, rest, -, rfl⟩ | ⟨a, v, rest, -, rfl⟩ | ⟨samples, rest, -, rfl⟩
  · exact hs
  · obtain rfl := eq_afterCommand hexec
    exact hP.command _ w i (hP.pending s rest hs)
  · exact hP.illegal _ w (hP.pending s rest hs)
  · exact hP.reset _ (hP.pending s rest hs)
  · exact hP.hostRead _ a (hP.pending s rest hs)
  · exact hP.hostWrite _ a v (hP.pending s rest hs)
  · exact hP.hostLoad _ samples (hP.pending s rest hs)

/-! ### Frame memory -/

theorem Access.after_wf {m : Memory} (h : m.wf = true) (x : Access) : (x.after m).wf = true := by
  cases x with
  | get a => exact h
  | put a b => exact Memory.wf_write m a _ h

/-- The block's accesses keep the canonical form. -/
theorem accessMemory_wf {m : Memory} (h : m.wf = true) (xs : List Access) : (accessMemory m xs).wf = true := by
  induction xs generalizing m with
  | nil => exact h
  | cons x rest ih => exact ih (Access.after_wf h x)

/-- Settles O41: a write keeps the canonical form and a load begins it. -/
theorem stepKeepsMemoryCanonical : Obligations.StepKeepsMemoryCanonical := fun _ _ hs hstep =>
  KeptByEveryAction.step (P := fun s => s.mem.wf = true)
    { pending := fun _ _ h => h
      command := fun _ _ _ h => accessMemory_wf h _
      illegal := fun _ _ h => h
      reset := fun _ h => h
      hostRead := fun _ _ h => h
      hostWrite := fun s a v h => Memory.wf_write s.mem a v h
      hostLoad := fun s samples _ => Memory.wf_load s.mem samples } hs hstep

theorem Access.after_upper (m : Memory) (x : Access) (a : Nat) :
    (x.after m).read a &&& 0xFE = m.read a &&& 0xFE := by
  cases x with
  | get b => rfl
  | put b bit =>
    rw [Access.after, Memory.read_write]
    split
    next h => rw [setLsb_upper, h]
    next => rfl

/-- The block's accesses leave bits 7:1 of every sample. -/
theorem accessMemory_upper (m : Memory) (xs : List Access) (a : Nat) :
    (accessMemory m xs).read a &&& 0xFE = m.read a &&& 0xFE := by
  induction xs generalizing m with
  | nil => rfl
  | cons x rest ih => exact (ih (x.after m)).trans (Access.after_upper m x a)

/-- Settles O39: a command overwrites low bits only, and no other action but those excluded writes. -/
theorem blockNeverChangesUpperBits : Obligations.BlockNeverChangesUpperBits := by
  intro s t hstep hwrite hload a
  rcases step_cases hstep with ⟨-, rfl⟩ | ⟨w, rest, i, -, -, hexec⟩ | ⟨w, rest, why, -, -, rfl⟩ | ⟨rest, -, rfl⟩ |
    ⟨b, rest, -, rfl⟩ | ⟨b, v, rest, hp, -⟩ | ⟨samples, rest, hp, -⟩
  · rfl
  · obtain rfl := eq_afterCommand hexec
    exact accessMemory_upper s.mem _ a
  · rfl
  · rfl
  · rfl
  · exact absurd hp (hwrite b v rest)
  · exact absurd hp (hload samples rest)

/-! ### The walk -/

/-- Rule R15: a command restarts the walk, moves it on from inside, leaves it, or places it at Bit Position 8. -/
theorem State.registersAfter_walkForm {s : State} (h : WalkForm s) (i : Instr) : WalkForm (s.registersAfter i) := by
  cases i with
  | seth | setw | setc | seqStart => exact .inl ⟨rfl, rfl, rfl⟩
  | rdreg => exact h
  | seqGet | seqPut =>
    simp only [State.registersAfter]
    split
    next => exact h
    next hex =>
      have hpos := s.exhausted_eq_false_iff.mp (Bool.eq_false_of_not_eq_true hex)
      exact .inr (h.walkInside hpos).advance_form
  | embed | extract =>
    simp only [State.registersAfter]
    split
    next => exact .inl ⟨rfl, rfl, rfl⟩
    next hlt =>
      have hle := Nat.le_of_not_lt hlt
      exact State.placeWalk_form (Nat.zero_lt_of_lt hle) hle

/-- Settles O42: no action but a command moves the walk, and reset restarts it. -/
theorem stepKeepsWalkForm : Obligations.StepKeepsWalkForm := fun _ _ hs hstep =>
  KeptByEveryAction.step (P := WalkForm)
    { pending := fun _ _ h => h
      command := fun s w i h => State.registersAfter_walkForm (s := s.emit (.command w)) h i
      illegal := fun _ _ h => h
      reset := fun _ _ => .inl ⟨rfl, rfl, rfl⟩
      hostRead := fun _ _ h => h
      hostWrite := fun _ _ _ h => h
      hostLoad := fun _ _ h => h } hs hstep

/-! ### The trace as a record of frame memory -/

theorem replay_append (m : Memory) (es es' : List Event) :
    replay m (es ++ es') = (replay m es).bind fun m' => replay m' es' := by
  induction es generalizing m with
  | nil => rfl
  | cons e rest ih =>
    cases e with
    | read a v | hostRead a v =>
      simp only [List.cons_append, replay]
      split
      · exact ih m
      · rfl
    | write | hostWrite | hostLoad | command | respond | reset => exact ih _

/-- The block's accesses replay to the memory they leave: each read sees the memory of its moment. -/
theorem replay_accessEvents (m : Memory) (xs : List Access) :
    replay m (accessEvents m xs) = some (accessMemory m xs) := by
  induction xs generalizing m with
  | nil => rfl
  | cons x rest ih =>
    have hone : replay m (x.events m) = some (x.after m) := by
      cases x with
      | get a | put a b => exact if_pos rfl
    rw [accessEvents, replay_append, hone]
    exact ih (x.after m)

/-- Further events replay from the memory that the trace gives. -/
theorem TraceGivesMemory.of_append {s t : State} (h : TraceGivesMemory s) {es : List Event}
    (htrace : t.trace = s.trace ++ es) (hes : replay s.mem es = some t.mem) : TraceGivesMemory t := by
  rw [TraceGivesMemory, htrace, replay_append, h]
  exact hes

theorem TraceGivesMemory.command {s : State} (h : TraceGivesMemory s) (w : Word) (i : Instr) :
    TraceGivesMemory ((s.emit (.command w)).afterCommand i) := by
  have htaken : TraceGivesMemory (s.emit (.command w)) := h.of_append rfl rfl
  refine htaken.of_append (State.afterCommand_trace _ i) ?_
  rw [replay_append, replay_accessEvents]
  rfl

/-- Settles O43: what an action adds to the trace replays from the memory before it to the memory after it. -/
theorem stepKeepsTraceOfMemory : Obligations.StepKeepsTraceOfMemory := fun _ _ hs hstep =>
  KeptByEveryAction.step (P := TraceGivesMemory)
    { pending := fun _ _ h => h
      command := fun _ w i h => h.command w i
      illegal := fun s w h =>
        (h.of_append (t := s.emit (.command w)) rfl rfl).of_append (es := [.respond 0x30000000]) rfl rfl
      reset := fun _ h => h.of_append rfl rfl
      hostRead := fun _ _ h => h.of_append rfl (if_pos rfl)
      hostWrite := fun _ _ _ h => h.of_append rfl rfl
      hostLoad := fun _ _ h => h.of_append rfl rfl } hs hstep

/-! ### The trace as a record of the sticky bits -/

/-- The sticky bits after further events, from those before them. -/
theorem TraceGivesSticky.of_append {s t : State} (h : TraceGivesSticky s) {es : List Event}
    (htrace : t.trace = s.trace ++ es) (hes : es.foldl stickyAfter (s.eIfb, s.eIll) = (t.eIfb, t.eIll)) :
    TraceGivesSticky t := by
  rw [TraceGivesSticky, htrace, List.foldl_append, h]
  exact hes

/-- An access is no response and no reset. -/
theorem foldl_stickyAfter_accessEvents (p : Bool × Bool) (m : Memory) (xs : List Access) :
    (accessEvents m xs).foldl stickyAfter p = p := by
  induction xs generalizing m with
  | nil => rfl
  | cons x rest ih =>
    have hone : (x.events m).foldl stickyAfter p = p := by cases x <;> rfl
    rw [accessEvents, List.foldl_append, hone, ih]

/-- Table T8: the numbers of the four status codes are different. -/
theorem StatusCode.code_injective {x y : StatusCode} (h : x.code = y.code) : x = y := by
  have hall : ∀ x ∈ [StatusCode.ok, .eos, .ifb, .ill], ∀ y ∈ [StatusCode.ok, .eos, .ifb, .ill],
      x.code = y.code → x = y := by decide
  have hmem : ∀ x : StatusCode, x ∈ [StatusCode.ok, .eos, .ifb, .ill] := fun x => by cases x <;> decide
  exact hall x (hmem x) y (hmem y) h

/-- Two responses of different status are different words. -/
theorem responseWord_ne {status status' : StatusCode} (h : status ≠ status') (data data' : Half) :
    responseWord status data ≠ responseWord status' data' := by
  intro hword
  apply h (StatusCode.code_injective _)
  rw [← responseStatus_responseWord status data, hword, responseStatus_responseWord]

/-- A command's response is recorded in `E_IFB` exactly where it is `IFB`, and never in `E_ILL`. -/
theorem State.stickyAfter_response (s : State) (i : Instr) (p : Bool × Bool) :
    stickyAfter p (.respond (responseWord (s.statusOf i) (s.answerTo i))) =
      (p.1 || decide (s.statusOf i = .ifb), p.2) := by
  have hill : s.statusOf i ≠ .ill := fun hill => by
    rcases s.statusOf_ok_or i with h | ⟨h | h, -⟩ <;> cases hill.symm.trans h
  have hsecond := beq_false_of_ne (responseWord_ne hill (s.answerTo i) 0)
  rw [stickyAfter, hsecond, Bool.or_false]
  by_cases hifb : s.statusOf i = .ifb
  · rcases s.statusOf_ok_or i with hok | ⟨-, hdata⟩
    · rw [hifb] at hok
      cases hok
    · rw [hifb, hdata, beq_self_eq_true, decide_eq_true rfl]
  · rw [beq_false_of_ne (responseWord_ne hifb _ _), decide_eq_false hifb]

theorem TraceGivesSticky.command {s : State} (h : TraceGivesSticky s) (w : Word) (i : Instr) :
    TraceGivesSticky ((s.emit (.command w)).afterCommand i) := by
  have htaken : TraceGivesSticky (s.emit (.command w)) := h.of_append rfl rfl
  refine htaken.of_append (State.afterCommand_trace _ i) ?_
  rw [List.foldl_append, foldl_stickyAfter_accessEvents, List.foldl_cons, List.foldl_nil,
    State.stickyAfter_response, State.afterCommand_eIfb, State.afterCommand_eIll]

/-- The response `ILL` is recorded in `E_ILL` alone. -/
theorem TraceGivesSticky.illegal {s : State} (h : TraceGivesSticky s) (w : Word) :
    TraceGivesSticky (raiseException .illegalCommand (s.emit (.command w))) := by
  have htaken : TraceGivesSticky (s.emit (.command w)) := h.of_append rfl rfl
  refine htaken.of_append (es := [.respond (responseWord .ill 0)]) rfl ?_
  simp [stickyAfter, raiseException, respond, responseWord_ne (show StatusCode.ill ≠ .ifb by decide)]

/-- Settles O44: a command's response alone is recorded, as the bit it sets, and a reset clears both. -/
theorem stepKeepsStickyRecord : Obligations.StepKeepsStickyRecord := fun _ _ hs hstep =>
  KeptByEveryAction.step (P := TraceGivesSticky)
    { pending := fun _ _ h => h
      command := fun _ w i h => h.command w i
      illegal := fun _ w h => h.illegal w
      reset := fun _ h => h.of_append rfl rfl
      hostRead := fun _ _ h => h.of_append rfl rfl
      hostWrite := fun _ _ _ h => h.of_append rfl rfl
      hostLoad := fun _ _ h => h.of_append rfl rfl } hs hstep

/-! ### The trace as a conversation -/

theorem Talk.after_append (k : Talk) (es es' : List Event) :
    k.after (es ++ es') = (k.after es).bind fun k' => k'.after es' := by
  induction es generalizing k with
  | nil => rfl
  | cons e rest ih =>
    rw [List.cons_append, Talk.after, Talk.after, Option.bind_assoc]
    exact congrArg _ (funext fun k' => ih k')

/-- During a command an access is admitted, and the command goes on. -/
theorem Talk.after_events {k : Talk} (hk : k ≠ .idle) (m : Memory) (x : Access) :
    ∃ k', k' ≠ .idle ∧ k.after (x.events m) = some k' := by
  cases x with
  | get a => exact ⟨.justRead a (m.read a), nofun, by simp [Access.events, Talk.after, Talk.next, hk]⟩
  | put a b => exact ⟨.busy, nofun, by
    simpa [Access.events, Talk.after, Talk.next, hk] using setLsb_upper (m.read a) b⟩

theorem Talk.after_accessEvents {k : Talk} (hk : k ≠ .idle) (m : Memory) (xs : List Access) :
    ∃ k', k' ≠ .idle ∧ k.after (accessEvents m xs) = some k' := by
  induction xs generalizing k m with
  | nil => exact ⟨k, hk, rfl⟩
  | cons x rest ih =>
    obtain ⟨k', hk', hone⟩ := Talk.after_events hk m x
    obtain ⟨k'', hk'', hrest⟩ := ih hk' (x.after m)
    exact ⟨k'', hk'', by rw [accessEvents, Talk.after_append, hone, Option.bind_some, hrest]⟩

theorem TraceIsConversation.of_append {s t : State} (h : TraceIsConversation s) {es : List Event}
    (htrace : t.trace = s.trace ++ es) (hes : Talk.after .idle es = some .idle) : TraceIsConversation t := by
  rw [TraceIsConversation, htrace, Talk.after_append, h]
  exact hes

/-- A command word, the command's accesses and its one response are a whole exchange. -/
theorem TraceIsConversation.command {s : State} (h : TraceIsConversation s) (w : Word) (i : Instr) :
    TraceIsConversation ((s.emit (.command w)).afterCommand i) := by
  refine h.of_append ((State.afterCommand_trace _ i).trans (List.append_assoc ..)) ?_
  obtain ⟨k, hk, haccesses⟩ := Talk.after_accessEvents (k := .busy) nofun s.mem ((s.emit (.command w)).accessesOf i)
  rw [List.singleton_append, Talk.after]
  show Talk.after .busy _ = _
  rw [Talk.after_append, State.emit_mem, haccesses]
  simp [Talk.after, Talk.next, hk]

/-- Settles O45: every action adds a whole exchange, or one event that is the host's between commands. -/
theorem stepKeepsConversation : Obligations.StepKeepsConversation := fun _ _ hs hstep =>
  KeptByEveryAction.step (P := TraceIsConversation)
    { pending := fun _ _ h => h
      command := fun _ w i h => h.command w i
      illegal := fun _ w h => h.of_append (es := [.command w, .respond 0x30000000]) (List.append_assoc ..) rfl
      reset := fun _ h => h.of_append rfl rfl
      hostRead := fun _ _ h => h.of_append rfl rfl
      hostWrite := fun _ _ _ h => h.of_append rfl rfl
      hostLoad := fun _ _ h => h.of_append rfl rfl } hs hstep

/-- Settles O46: nothing has been placed, walked or shown. -/
theorem resetMeetsEveryInvariant : Obligations.ResetMeetsEveryInvariant :=
  ⟨State.reset_mem_wf, .inl ⟨rfl, rfl, rfl⟩, rfl, rfl, rfl⟩

end Sys2Proof.Machine
end

section
/-! SUPPORT. The encoding once more: a word that decodes to a command is that command's encoding (rule R62), so decoder and
encoder undo each other on all commands and all their words. -/

namespace Sys2Proof

/-- Settles O1: `decode_encode`, where the decoder finds the opcode and the operand that the encoder put. -/
theorem decodeOfEncode : Obligations.DecodeOfEncode := Machine.decode_encode

theorem Reg.index_ofIndex (x : BitVec 3) : (Reg.ofIndex x).index = x := by
  revert x; decide

/-- An operand field whose higher bits are zero holds its lower bits, extended with zeros. -/
theorem setWidth_extractLsb'_of_zero (imm : Half) (k : Nat) (h : imm.extractLsb' k (16 - k) = 0) :
    (imm.extractLsb' 0 k).setWidth 16 = imm := by
  apply BitVec.eq_of_getLsbD_eq
  intro j hj
  rw [BitVec.getLsbD_setWidth, BitVec.getLsbD_extractLsb', Nat.zero_add, decide_eq_true hj, Bool.true_and]
  by_cases hjk : j < k
  · rw [decide_eq_true hjk, Bool.true_and]
  · have hbit := congrArg (·.getLsbD (j - k)) h
    simp only [BitVec.getLsbD_extractLsb', show k + (j - k) = j by omega] at hbit
    simpa [hjk, show j - k < 16 - k by omega] using hbit.symm

theorem extractLsb'_one_eq_ofBool (imm : Half) : imm.extractLsb' 0 1 = BitVec.ofBool (imm.getLsbD 0) := by
  apply BitVec.eq_of_getLsbD_eq
  intro j hj
  obtain rfl : j = 0 := Nat.lt_one_iff.mp hj
  simp

/-- The `imm` field of a word that decodes to a command is that of the command's encoding. -/
theorem immField_of_decode {w : Word} {i : Instr} (h : decode w = .command i) : immField w = immField (encode i) := by
  obtain ⟨hrsv, hop, himm⟩ := fits_of_decode h
  cases i with
  | seth n | setw n | setc n =>
    obtain rfl : immField w = n := by simpa [decode, hrsv, hop, Mnemonic.op, Instr.mnemonic] using h
    exact (Laws.immField_commandWord _ _).symm
  | rdreg r =>
    have hhigh := (and_highMask_eq_zero_iff (immField w) 3).mp himm
    obtain rfl : Reg.ofIndex ((immField w).extractLsb' 0 3) = r := by
      simpa [decode, hrsv, hop, Mnemonic.op, Instr.mnemonic, hhigh] using h
    refine Eq.trans ?_ (Laws.immField_commandWord _ _).symm
    rw [Reg.index_ofIndex, setWidth_extractLsb'_of_zero _ 3 hhigh]
  | seqStart | seqGet | extract =>
    exact (BitVec.and_allOnes.symm.trans himm).trans (Laws.immField_commandWord _ _).symm
  | seqPut b =>
    have hhigh := (and_highMask_eq_zero_iff (immField w) 1).mp himm
    obtain rfl : (immField w).getLsbD 0 = b := by
      simpa [decode, hrsv, hop, Mnemonic.op, Instr.mnemonic, hhigh] using h
    refine Eq.trans ?_ (Laws.immField_commandWord _ _).symm
    rw [← extractLsb'_one_eq_ofBool, setWidth_extractLsb'_of_zero _ 1 hhigh]
  | embed v =>
    have hhigh := (and_highMask_eq_zero_iff (immField w) 8).mp himm
    obtain rfl : (immField w).extractLsb' 0 8 = v := by
      simpa [decode, hrsv, hop, Mnemonic.op, Instr.mnemonic, hhigh] using h
    exact (setWidth_extractLsb'_of_zero _ 8 hhigh).symm.trans (Laws.immField_commandWord _ _).symm

/-- Settles O2: a word and the encoding of its command agree in all three fields, the first two by rule R65. -/
theorem encodeOfDecode : Obligations.EncodeOfDecode := by
  intro w i h
  obtain ⟨hrsv, hop, -⟩ := fits_of_decode h
  obtain ⟨hrsv', hop', -⟩ := fits_of_decode (Machine.decode_encode i)
  exact (word_eq_iff_fields _ _).mpr
    ⟨hop'.trans hop.symm, hrsv'.trans hrsv.symm, (immField_of_decode h).symm⟩

/-- Settles O4: the nine words are the encodings of their commands, and the tenth has a bit above its field. -/
theorem wordsOfTheSpecDecode : Obligations.WordsOfTheSpecDecode :=
  ⟨Machine.decode_encode (.seth 4), Machine.decode_encode (.setw 640), Machine.decode_encode (.setc 3),
    Machine.decode_encode (.rdreg .status), Machine.decode_encode .seqStart, Machine.decode_encode .seqGet,
    Machine.decode_encode (.seqPut true), Machine.decode_encode (.embed 0x68), Machine.decode_encode .extract,
    by decide⟩

end Sys2Proof
end

section
/-! SUPPORT. A step by what the host does next (rules R10, R52 and R171), and the block before it is configured (rule
R31). -/

namespace Sys2Proof.Machine

/-- Settles O6: `step_of_command`, the taken word written out. -/
theorem stepPerformsDecodedCommand : Obligations.StepPerformsDecodedCommand := by
  intro s w rest i hp hd
  rw [step_of_command hp hd, takeCommand_eq]

/-- Settles O7: each action of the host is its own branch of a step. -/
theorem hostActsOnlyOnFrameMemory : Obligations.HostActsOnlyOnFrameMemory := by
  refine fun s rest => ⟨fun hp => ?_, fun a hp => ?_, fun a v hp => ?_, fun samples hp => ?_⟩
  · simp [step, hp]
  · simp only [step, hp, hostRead_eq]
    rfl
  · refine ⟨hostWrite a v (s.setPending rest), by simp only [step, hp], fun b => ?_, rfl⟩
    exact Memory.read_write s.mem a b v
  · refine ⟨hostLoad samples (s.setPending rest), by simp only [step, hp], fun k v hk => ?_, rfl⟩
    exact (Memory.read_load s.mem samples k).trans (by rw [hk, Option.getD_some])

/-- An empty frame has no sample to access. -/
theorem State.accessesOf_of_empty {s : State} (h : s.sampleCount = 0) (i : Instr) : s.accessesOf i = [] := by
  have hex : s.exhausted = true := s.exhausted_iff.mpr (h ▸ Nat.zero_le _)
  cases i with
  | seth | setw | setc | rdreg | seqStart => rfl
  | seqGet | seqPut => simp only [State.accessesOf, if_pos hex]
  | embed | extract => simp only [State.accessesOf, h, if_pos (show 0 < 8 by decide)]

/-- Settles O9: with all extents zero the frame is empty, so the walk is at its end and no command has a sample to access. -/
theorem unconfiguredBlockTouchesNoMemory : Obligations.UnconfiguredBlockTouchesNoMemory := by
  intro s ⟨hh, hw, hc⟩ ⟨hrow, hcol, hch⟩
  have hcount : s.sampleCount = 0 := by simp [State.sampleCount, hh]
  have hex : s.exhausted = true := s.exhausted_iff.mpr (hcount ▸ Nat.zero_le _)
  refine ⟨hcount, hex, fun i hi => ?_, fun i hi => ?_, fun i => ?_⟩
  · exact exec_bitCommand_of_exhausted (isBitCommand_iff.mpr hi) hex
  · rw [exec_frameCodec_of_lt hi (by omega)]
    simp only [hrow, hcol, hch]
  · refine ⟨_, responseWord (s.statusOf i) (s.answerTo i), exec_eq i s, ?_, ?_⟩
    · rw [State.afterCommand_mem, State.accessesOf_of_empty hcount]
      rfl
    · rw [State.afterCommand_trace, State.accessesOf_of_empty hcount]
      rfl

end Sys2Proof.Machine
end

section
/-! SUPPORT. The walk: a walk of rule R15's form is the numeral of its position (rules R17 and R18), and so many steps of
`advance` from its beginning are the numeral of so much (rule R92). A run of `SEQ.GET` is the frame's sequence (rule R85). -/

namespace Sys2Proof.Machine

/-! ### The position of a walk -/

/-- Rule R17: in a frame that is not empty, a walk of the three forms is the numeral of its position. -/
theorem WalkForm.placeWalk_pos_self {s : State} (h : WalkForm s) (hpos : 0 < s.sampleCount) :
    s.placeWalk s.pos = s := by
  obtain ⟨-, hw, hc⟩ := State.extents_pos hpos
  rcases h with ⟨-, hcol, hch⟩ | ⟨-, hcol, hch⟩ | ⟨-, hcol, hch, -⟩
  · exact State.placeWalk_pos_self (by rw [hcol]; exact hw) (by rw [hch]; exact hc)
  · exact State.placeWalk_pos_self hcol hch
  · exact State.placeWalk_pos_self (by rw [hcol]; exact hw) (by rw [hch]; exact hc)

theorem WalkForm.pos_le {s : State} (h : WalkForm s) : s.pos ≤ s.sampleCount := by
  rcases h with hstart | hin | hend
  · exact hstart.pos_eq ▸ Nat.zero_le _
  · exact hin.pos_lt.le
  · exact hend.pos_eq.le

/-- Settles O16: one shape and one position have one numeral. -/
theorem positionNamesTheWalk : Obligations.PositionNamesTheWalk := by
  refine ⟨fun s h => ⟨h.pos_le, State.walkAtStart.pos_eq, State.walkAtEnd.pos_eq⟩, ?_⟩
  intro s t hs ht ⟨hh, hw, hc⟩ hpos hsame
  have hcount : t.sampleCount = s.sampleCount := State.sampleCount_congr ⟨hh.symm, hw.symm, hc.symm⟩
  have hself := hs.placeWalk_pos_self hpos
  have hself' := ht.placeWalk_pos_self (hcount ▸ hpos)
  rw [← hself, ← hself', hsame]
  simp only [State.placeWalk, hw, hc]
  exact ⟨rfl, rfl, rfl⟩

/-- Settles O17: of the three forms the inside one has a position below `N()`, and the start form has position 0. -/
theorem exhaustedExactlyAtTheEnd : Obligations.ExhaustedExactlyAtTheEnd := by
  intro s hform
  rw [State.exhausted_iff]
  constructor
  · intro hle
    rcases hform with hstart | hin | hend
    · exact .inr ⟨hstart, Nat.le_zero.mp (hstart.pos_eq ▸ hle)⟩
    · exact absurd hin.pos_lt (Nat.not_lt.mpr hle)
    · exact .inl hend
  · rintro (hend | ⟨-, hempty⟩)
    · exact hend.pos_eq.ge
    · exact hempty ▸ Nat.zero_le _

/-- `k` steps from the beginning place the walk at Bit Position `k`. -/
theorem advance_iterate_restartWalk {s : State} {k : Nat} (hk : k ≤ s.sampleCount) :
    advance^[k] (restartWalk s) = s.placeWalk k := by
  induction k with
  | zero => exact restartWalk_eq_placeWalk s
  | succ k ih => rw [Function.iterate_succ_apply', ih (Nat.le_of_succ_le hk), advance_placeWalk hk]

/-- Settles O18: with three channels and a row of three pixels, the digits of a position up to 8 are its quotient and
remainder by 3. -/
theorem firstPositionsLieInTheFirstThreePixels : Obligations.FirstPositionsLieInTheFirstThreePixels := by
  intro s k hc hw hcount hk
  have hc3 : s.c.toNat = 3 := by rw [hc]; rfl
  have hrow : k / (s.w.toNat * 3) = 0 := Nat.div_eq_of_lt (by omega)
  have hcol : k / 3 % s.w.toNat = k / 3 := Nat.mod_eq_of_lt (by omega)
  rw [advance_iterate_restartWalk (hk.trans hcount)]
  simp only [State.placeWalk, State.setWalk_row, State.setWalk_col, State.setWalk_ch, hc3, hrow, hcol,
    BitVec.toNat_ofNat]
  exact ⟨rfl, Nat.mod_eq_of_lt (by omega), Nat.mod_eq_of_lt (by omega)⟩

/-! ### A run of `SEQ.GET` -/

theorem bitCommandEvents_seqGet (m : Memory) {count j : Nat} (h : j < count) :
    bitCommandEvents m count j .seqGet =
      [.read j (m.read j), .respond (responseWord .ok (bitData (lsb (m.read j))))] := if_pos h

/-- Rule R85: a run of `SEQ.GET` inside the frame reads sample after sample and answers each one's bit. -/
theorem bitRunEvents_replicate_seqGet (m : Memory) {count j : Nat} (n : Nat) (hfit : j + n ≤ count) :
    bitRunEvents m count j (List.replicate n .seqGet) =
      (List.range' j n).flatMap fun a =>
        [.read a (m.read a), .respond (if (m.read a).getLsbD 0 then 0x00000001 else 0x00000000)] := by
  induction n generalizing j with
  | zero => rfl
  | succ n ih =>
    rw [List.replicate_succ, bitRunEvents, ih (by omega), List.range'_succ, List.flatMap_cons,
      bitCommandEvents_seqGet m (by omega), responseWord_ok_bitData]
    rfl

/-- The responses of such a run. -/
theorem responses_replicate_seqGet (m : Memory) {count j : Nat} (n : Nat) (hfit : j + n ≤ count) :
    (bitRunEvents m count j (List.replicate n .seqGet)).filter (fun e => !e.isAccess) =
      (List.range' j n).map fun a =>
        .respond (if (m.read a).getLsbD 0 then 0x00000001 else 0x00000000) := by
  rw [bitRunEvents_replicate_seqGet m n hfit, List.filter_flatMap]
  exact List.flatMap_pure_eq_map _ _

/-- The accesses of such a run are those of `EXTRACT` (rule R108). -/
theorem accesses_replicate_seqGet (m : Memory) {count j : Nat} (n : Nat) (hfit : j + n ≤ count) :
    (bitRunEvents m count j (List.replicate n .seqGet)).filter Event.isAccess = readEvents m j n := by
  rw [bitRunEvents_replicate_seqGet m n hfit, List.filter_flatMap]
  exact List.flatMap_pure_eq_map _ _

/-- Reading changes no sample. -/
theorem Memory.afterBitRun_replicate_seqGet (m : Memory) (count j n : Nat) :
    m.afterBitRun count j (List.replicate n .seqGet) = m := by
  induction n generalizing j with
  | zero => rfl
  | succ n ih =>
    have hone : m.afterBitCommand count j .seqGet = m := by
      unfold Memory.afterBitCommand
      split <;> rfl
    rw [List.replicate_succ, Memory.afterBitRun, hone, ih]

theorem isBitCommand_replicate_seqGet (n : Nat) : ∀ i ∈ List.replicate n Instr.seqGet, isBitCommand i = true := by
  intro i hi
  rw [List.eq_of_mem_replicate hi]
  rfl

/-- Settles O23: the run after `SEQ.START` is `execAll_seqStart_bitCommands`; of `N()` + 1 `SEQ.GET` the last finds the walk
at its end. -/
theorem runOfBitCommandsYieldsTheSequence : Obligations.RunOfBitCommandsYieldsTheSequence := by
  refine ⟨fun s is hall => ⟨_, execAll_seqStart_bitCommands is hall s, ?_⟩, fun s =>
    ⟨_, execAll_seqStart_bitCommands _ (isBitCommand_replicate_seqGet _) s, ?_, ?_⟩⟩
  · rw [State.placeWalk_trace, State.record_trace, List.append_assoc]
    rfl
  · exact Memory.afterBitRun_replicate_seqGet ..
  · have hsequence := responses_replicate_seqGet s.mem s.sampleCount (Nat.zero_add s.sampleCount).le
    have heos : bitRunEvents s.mem s.sampleCount s.sampleCount [.seqGet] = [.respond 0x10000000] := by
      rw [bitRunEvents, bitCommandEvents_of_le _ _ le_rfl]
      rfl
    rw [eventsSince_record_placeWalk, List.replicate_succ', bitRunEvents_append, List.length_replicate, Nat.zero_add,
      heos, List.filter_cons_of_pos rfl, List.filter_append, hsequence, ← List.range_eq_range']
    rfl

end Sys2Proof.Machine
end

section
/-! SUPPORT. The Frame Codec against itself and against the one-bit commands: how many samples `EMBED` changes (rule R103),
that the last `EMBED` wins (rule R107), that both commands are walks of 8 bits (rule R108), and that they see no more of the
frame than 8 samples (rule R111). -/

namespace Sys2Proof.Machine

/-! ### The state in which the Frame Codec completes -/

section
variable {s : State}

theorem State.afterCommand_embed_of_le (h : 8 ≤ s.sampleCount) (v : Byte) :
    s.afterCommand (.embed v) =
      ((s.setData v).record (s.unitMemory v)
        ((s.unitEvents v).filter Event.isAccess ++ [.respond 0])).placeWalk 8 :=
  (eq_afterCommand (exec_embed_of_le h v)).symm

theorem State.afterCommand_extract_of_le (h : 8 ≤ s.sampleCount) :
    s.afterCommand .extract =
      ((s.setData s.mem.extracted).record s.mem
        (readEvents s.mem 0 8 ++ [.respond (s.mem.extracted.setWidth 32)])).placeWalk 8 :=
  (eq_afterCommand (exec_extract_extracted h)).symm

theorem eventsSince_embed_of_le (h : 8 ≤ s.sampleCount) (v : Byte) :
    eventsSince s (s.afterCommand (.embed v)) =
      (s.unitEvents v).filter Event.isAccess ++ [.respond 0] := by
  rw [State.afterCommand_embed_of_le h]
  exact List.drop_left

theorem eventsSince_extract_of_le (h : 8 ≤ s.sampleCount) :
    eventsSince s (s.afterCommand .extract) =
      readEvents s.mem 0 8 ++ [.respond (s.mem.extracted.setWidth 32)] := by
  rw [State.afterCommand_extract_of_le h]
  exact List.drop_left

theorem State.afterCommand_frameCodec_of_lt {i : Instr} (hi : i = .extract ∨ ∃ v, i = .embed v)
    (h : s.sampleCount < 8) :
    s.afterCommand i =
      { s with row := 0, col := 0, ch := 0, eIfb := true, trace := s.trace ++ [.respond 0x20000000] } :=
  (eq_afterCommand (exec_frameCodec_of_lt hi h)).symm

end

/-! ### How many samples change -/

/-- A sample changes exactly when its bit does. -/
theorem setLsb_ne_iff (sample : Byte) (b : Bool) : setLsb sample b ≠ sample ↔ lsb sample ≠ b := by
  refine not_congr ⟨fun h => ?_, fun h => ?_⟩
  · rw [← h, lsb_setLsb]
  · rw [← h, setLsb_lsb]

/-- The bits of a Payload Unit counted from either end. -/
theorem countP_getLsbD_eq_countP_unitBit (v : Byte) :
    (List.range 8).countP (fun k => v.getLsbD k) = (List.range 8).countP (unitBit v) := by
  have hreverse : (List.range 8).reverse = (List.range 8).map (7 - ·) := by decide
  rw [← List.countP_reverse, hreverse, List.countP_map]
  rfl

/-- Settles O27: every one of the 8 samples is written, and changes where its bit differs from the unit's. -/
theorem embedChangesAsManySamplesAsBitsDiffer : Obligations.EmbedChangesAsManySamplesAsBitsDiffer := by
  intro v s t u hle ht hu
  obtain rfl := eq_afterCommand ht
  obtain rfl := eq_afterCommand hu
  rw [eventsSince_embed_of_le hle, State.accesses_unitEvents hle, State.afterCommand_embed_of_le hle,
    State.afterCommand_extract_of_le hle]
  have hchange : ∀ i, i < 8 →
      ((s.unitMemory v).read i ≠ s.mem.read i ↔ lsb (s.mem.read i) ≠ unitBit v i) := fun i hi => by
    rw [State.read_unitMemory_of_le hle, if_pos hi]
    exact setLsb_ne_iff _ _
  refine ⟨rfl, hchange, ?_⟩
  rw [countP_getLsbD_eq_countP_unitBit]
  refine List.countP_congr fun i hi => ?_
  have hi8 := List.mem_range.mp hi
  have hxor : unitBit (v ^^^ s.mem.extracted) i = (unitBit v i ^^ lsb (s.mem.read i)) := by
    rw [← s.mem.unitBit_extracted hi8]
    exact BitVec.getLsbD_xor
  rw [decide_eq_true_iff]
  exact (hchange i hi8).trans (ne_comm.trans (bne_iff_ne.symm.trans (iff_of_eq (congrArg (· = true) hxor.symm))))

/-! ### The last `EMBED` -/

/-- What a run of writes lists at each address. -/
theorem findCell_accessMemory_put (bit : Nat → Bool) (m : Memory) (j n a : Nat) :
    findCell (accessMemory m ((List.range' j n).map fun k => .put k (bit k))).cells a =
      if j ≤ a ∧ a < j + n then some (setLsb (m.read a) (bit a)) else findCell m.cells a := by
  induction n generalizing m j with
  | zero => rw [if_neg (by omega)]; rfl
  | succ n ih =>
    rw [List.range'_succ, List.map_cons, accessMemory, ih]
    have hfind : findCell (Access.after m (.put j (bit j))).cells a =
        if a = j then some (setLsb (m.read j) (bit j)) else findCell m.cells a := findCell_putCell _ _ _ _
    rcases Nat.lt_trichotomy a j with h | rfl | h
    · rw [if_neg (by omega), if_neg (by omega), hfind, if_neg (by omega)]
    · rw [if_neg (by omega), if_pos (by omega), hfind, if_pos rfl]
    · rw [hfind, if_neg (by omega : ¬ a = j), Access.after, Memory.read_write, if_neg (by omega : ¬ a = j)]
      simp [show j + 1 ≤ a by omega, h.le, Nat.add_right_comm j 1 n, Nat.add_assoc]

theorem accessMemory_loads (m : Memory) (xs : List Access) : (accessMemory m xs).loads = m.loads := by
  induction xs generalizing m with
  | nil => rfl
  | cons x rest ih => exact (ih _).trans (by cases x <;> rfl)

/-- The accesses of an `EMBED` that performs, as a run of writes from address 0 on. -/
theorem State.accessesOf_embed_of_le {s : State} (h : 8 ≤ s.sampleCount) (v : Byte) :
    s.accessesOf (.embed v) = (List.range' 0 8).map fun a => .put a (unitBit v a) :=
  if_neg (Nat.not_lt.mpr h)

theorem State.afterCommand_embed_sampleCount (s : State) (v : Byte) :
    (s.afterCommand (.embed v)).sampleCount = s.sampleCount := by
  rcases Nat.lt_or_ge s.sampleCount 8 with hlt | hle
  · rw [State.afterCommand_frameCodec_of_lt (.inr ⟨v, rfl⟩) hlt]
    rfl
  · rw [State.afterCommand_embed_of_le hle]
    rfl

/-- Frame memory after `EMBED u` lists nothing that `EMBED v` does not write again. -/
theorem findCell_embed_embed {s : State} (u v : Byte) (a : Nat) :
    findCell ((s.afterCommand (.embed u)).afterCommand (.embed v)).mem.cells a =
      findCell (s.afterCommand (.embed v)).mem.cells a := by
  have hcount := s.afterCommand_embed_sampleCount u
  rcases Nat.lt_or_ge s.sampleCount 8 with hlt | hle
  · rw [State.afterCommand_frameCodec_of_lt (.inr ⟨v, rfl⟩) (hcount ▸ hlt),
      State.afterCommand_frameCodec_of_lt (.inr ⟨u, rfl⟩) hlt, State.afterCommand_frameCodec_of_lt (.inr ⟨v, rfl⟩) hlt]
  · have hread : (s.afterCommand (.embed u)).mem.read a =
        if a < 8 then setLsb (s.mem.read a) (unitBit u a) else s.mem.read a := by
      rw [State.afterCommand_embed_of_le hle]
      exact State.read_unitMemory_of_le hle u a
    rw [State.afterCommand_mem, State.afterCommand_mem s (.embed v),
      State.accessesOf_embed_of_le (hle.trans_eq hcount.symm), State.accessesOf_embed_of_le hle,
      findCell_accessMemory_put, findCell_accessMemory_put, hread]
    by_cases ha : a < 8
    · rw [if_pos ha, if_pos (by omega), if_pos (by omega), setLsb_setLsb]
    · rw [if_neg (by omega), if_neg (by omega), State.afterCommand_mem, State.accessesOf_embed_of_le hle,
        findCell_accessMemory_put, if_neg (by omega)]

/-- Memories of canonical form that list the same samples after the same number of loads are the same data. -/
theorem Memory.eq_of_findCell {m m' : Memory} (hwf : m.wf = true) (hwf' : m'.wf = true) (hloads : m.loads = m'.loads)
    (hcells : ∀ a, findCell m.cells a = findCell m'.cells a) : m = m' := by
  obtain ⟨cells, loads⟩ := m
  obtain rfl : loads = m'.loads := hloads
  exact congrArg (Memory.mk · m'.loads) (cells_ext cells m'.cells hwf hwf' hcells)

/-- Settles O30: both memories list the same sample at every address, after the same number of loads. -/
theorem lastEmbedWins : Obligations.LastEmbedWins := by
  intro u v s
  have hcells := findCell_embed_embed (s := s) u v
  have hloads : ((s.afterCommand (.embed u)).afterCommand (.embed v)).mem.loads =
      (s.afterCommand (.embed v)).mem.loads := by
    simp only [State.afterCommand_mem, accessMemory_loads]
  refine ⟨_, _, (execAll_cons (exec_eq _ s) _).trans (execAll_cons (exec_eq _ _) []), exec_eq _ s,
    fun a => ?_, fun hwf => ?_⟩
  · rw [Memory.read, hcells, hloads]
    rfl
  · exact Memory.eq_of_findCell (accessMemory_wf (accessMemory_wf hwf _) _) (accessMemory_wf hwf _) hloads hcells

/-! ### `EMBED` and `EXTRACT` as walks of 8 bits -/

/-- Settles O31: with 8 samples both sides are the same run, and with fewer only the one-bit commands perform. -/
theorem frameCodecIsAWalkOfEightBits : Obligations.FrameCodecIsAWalkOfEightBits := by
  intro v s
  refine ⟨s.afterCommand (.embed v), _, s.afterCommand .extract, _, exec_eq _ s, execAll_embedBitsCommands v s,
    exec_eq _ s, execAll_seqStart_bitCommands _ (isBitCommand_replicate_seqGet 8) s, rfl, rfl, fun hle => ?_,
    fun hlt => ?_⟩
  · rw [eventsSince_record_placeWalk, eventsSince_record_placeWalk, eventsSince_embed_of_le hle,
      eventsSince_extract_of_le hle, State.afterCommand_embed_of_le hle, State.afterCommand_extract_of_le hle,
      Nat.min_eq_left hle, List.length_replicate, Nat.min_eq_left hle, Memory.afterBitRun_replicate_seqGet]
    have hreads := accesses_replicate_seqGet s.mem 8 (by omega : 0 + 8 ≤ s.sampleCount)
    have hbits := responses_replicate_seqGet s.mem 8 (by omega : 0 + 8 ≤ s.sampleCount)
    refine ⟨rfl, ⟨rfl, rfl, rfl⟩, ?_, rfl, rfl, ⟨rfl, rfl, rfl⟩, ?_,
      (List.range' 0 8).map fun a => lsb (s.mem.read a), ?_, ?_⟩
    · rw [List.filter_append, List.filter_filter]
      simp only [Bool.and_self]
      exact List.append_nil _
    · rw [List.filter_cons_of_neg (by decide), hreads]
      rfl
    · rw [List.filter_cons_of_pos rfl, hbits, List.map_map]
      rfl
    · exact (List.foldl_map ..).symm
  · have hnone : ∀ i, (i = .extract ∨ ∃ v, i = .embed v) → (s.afterCommand i).mem = s.mem ∧
        (eventsSince s (s.afterCommand i)).filter Event.isAccess = [] := fun i hi => by
      rw [State.afterCommand_frameCodec_of_lt hi hlt, eventsSince, List.drop_left]
      exact ⟨rfl, rfl⟩
    refine ⟨hnone _ (.inr ⟨v, rfl⟩), hnone _ (.inl rfl), ?_, ?_⟩
    · rw [eventsSince_record_placeWalk, embedBitsCommands_eq]
      rfl
    · exact eventsSince_record_placeWalk ..

/-! ### What the Frame Codec sees of the frame -/

/-- Settles O33: `EXTRACT` answers and `EMBED` leaves what 8 samples give, and a placed walk reads `W` and `C` alone. -/
theorem frameCodecDoesNotDependOnHeight : Obligations.FrameCodecDoesNotDependOnHeight := by
  intro i s s' hi hle hle' hagree
  refine ⟨⟨_, _, exec_eq i s, exec_eq i s', ?_⟩, fun hw hc k hk => ?_⟩
  · rcases hi with rfl | ⟨v, rfl⟩
    · have hsame : s'.mem.extracted = s.mem.extracted := Memory.extracted_eq fun a ha => by
        rw [hagree a ha, s.mem.unitBit_extracted ha]
      rw [State.afterCommand_extract_of_le hle, State.afterCommand_extract_of_le hle', hsame]
      refine ⟨rfl, ?_, hagree⟩
      simp
    · rw [State.afterCommand_embed_of_le hle, State.afterCommand_embed_of_le hle']
      refine ⟨rfl, ?_, fun a ha => ?_⟩
      · simp
      · have hread := State.read_unitMemory_of_le hle v a
        have hread' := State.read_unitMemory_of_le hle' v a
        rw [if_pos ha] at hread hread'
        exact hread'.trans ((congrArg (setLsb · _) (hagree a ha)).trans hread.symm)
  · rw [advance_iterate_restartWalk (by omega), advance_iterate_restartWalk (by omega)]
    simp only [State.placeWalk, hw, hc]
    exact ⟨rfl, rfl, rfl⟩

end Sys2Proof.Machine
end

section
/-! SUPPORT. The assembler: a command is built from exactly the operands in its range (rules R62 and R70), and the text form
of a command is read back piece by piece, its name, one space and its decimal operand. -/

namespace Sys2Proof.Machine

/-! ### From numbers to commands -/

/-- An operand that a mnemonic admits is missing where it takes none, and otherwise a number up to its largest. -/
theorem admits_iff (m : Mnemonic) (operand : Option Nat) :
    m.admits operand = true ↔
      (m.operandMax = none ∧ operand = none) ∨ ∃ top n, m.operandMax = some top ∧ operand = some n ∧ n ≤ top := by
  cases hmax : m.operandMax <;> cases operand <;> simp [Mnemonic.admits, hmax]

/-- A numeral that fits a register is kept whole. -/
theorem toNat_ofNat_of_le {w n top : Nat} (htop : top < 2 ^ w) (hn : n ≤ top) : (BitVec.ofNat w n).toNat = n :=
  (BitVec.toNat_ofNat n w).trans (Nat.mod_eq_of_lt (hn.trans_lt htop))

/-- Settles O47: out of range nothing is built, and in range the operand fits the field it is put into. -/
theorem assemblerRefusesOperandsOutOfRange : Obligations.AssemblerRefusesOperandsOutOfRange := by
  refine fun m operand => ⟨fun h => by rw [buildCommand, h]; rfl, fun h => ⟨_, if_pos h, ?_⟩⟩
  rcases (admits_iff m operand).mp h with ⟨hmax, rfl⟩ | ⟨top, n, hmax, rfl, hn⟩
  · cases m with
    | seqStart | seqGet | extract => exact ⟨rfl, rfl⟩
    | seth | setw | setc | rdreg | seqPut | embed => cases hmax
  · cases m with
    | seqStart | seqGet | extract => cases hmax
    | seth | setw | setc | embed =>
      cases hmax
      exact ⟨rfl, congrArg some (toNat_ofNat_of_le (by decide) hn)⟩
    | rdreg =>
      cases hmax
      refine ⟨rfl, congrArg some ?_⟩
      rw [Reg.index_ofIndex]
      exact toNat_ofNat_of_le (by decide) hn
    | seqPut =>
      cases hmax
      rcases Nat.le_one_iff_eq_zero_or_eq_one.mp hn with rfl | rfl <;> exact ⟨rfl, rfl⟩

theorem Reg.ofIndex_index (r : Reg) : Reg.ofIndex r.index = r := by
  cases r <;> decide

/-- A command is the one built from its own mnemonic and operand. -/
theorem buildCommand_commandOperand (i : Instr) : buildCommand i.mnemonic (commandOperand i) = some i := by
  cases i with
  | seth n | setw n | setc n =>
    have hle : n.toNat ≤ 65535 := Nat.le_of_lt_succ n.isLt
    simp [buildCommand, Mnemonic.admits, Mnemonic.operandMax, Instr.mnemonic, commandOperand, hle]
  | rdreg r =>
    have hle : r.index.toNat ≤ 7 := Nat.le_of_lt_succ r.index.isLt
    simp [buildCommand, Mnemonic.admits, Mnemonic.operandMax, Instr.mnemonic, commandOperand, hle, Reg.ofIndex_index]
  | seqStart | seqGet | extract => rfl
  | seqPut b => cases b <;> rfl
  | embed v =>
    have hle : v.toNat ≤ 255 := Nat.le_of_lt_succ v.isLt
    simp [buildCommand, Mnemonic.admits, Mnemonic.operandMax, Instr.mnemonic, commandOperand, hle]

/-! ### Decimal numerals -/

/-- The character is a decimal digit. -/
def IsDigit (ch : Char) : Prop := 48 ≤ ch.toNat ∧ ch.toNat ≤ 57

theorem isDigit_ofNat {d : Nat} (hd : d < 10) :
    IsDigit (Char.ofNat (48 + d)) ∧ digitValue 10 (Char.ofNat (48 + d)) = some d := by
  revert d
  unfold IsDigit
  decide

theorem isDigit_of_mem_decimal {fuel n : Nat} {ch : Char} (h : ch ∈ decimal fuel n) : IsDigit ch := by
  induction fuel generalizing n with
  | zero => cases h
  | succ fuel ih =>
    rcases List.mem_append.mp h with hhigh | hlast
    · split at hhigh
      · cases hhigh
      · exact ih hhigh
    · obtain rfl := List.mem_singleton.mp hlast
      obtain ⟨hdigit, -⟩ := isDigit_ofNat (Nat.mod_lt n (by decide : 0 < 10))
      exact hdigit

theorem readDigits_append (base acc : Nat) (text text' : List Char) :
    readDigits base acc (text ++ text') = (readDigits base acc text).bind fun a => readDigits base a text' := by
  induction text generalizing acc with
  | nil => rfl
  | cons ch rest ih =>
    simp only [List.cons_append, readDigits]
    cases digitValue base ch with
    | none => rfl
    | some d => exact ih _

/-- A number below `10 ^ fuel` is read back from its numeral. -/
theorem readDigits_decimal {fuel n : Nat} (h : n < 10 ^ fuel) : readDigits 10 0 (decimal fuel n) = some n := by
  induction fuel generalizing n with
  | zero =>
    obtain rfl : n = 0 := Nat.lt_one_iff.mp h
    rfl
  | succ fuel ih =>
    obtain ⟨-, hvalue⟩ := isDigit_ofNat (Nat.mod_lt n (by decide : 0 < 10))
    have hhigh : readDigits 10 0 (if n < 10 then [] else decimal fuel (n / 10)) = some (n / 10) := by
      split
      next hlt => rw [Nat.div_eq_of_lt hlt]; rfl
      next => exact ih (Nat.div_lt_of_lt_mul (by rwa [← Nat.pow_succ']))
    rw [decimal, readDigits_append, hhigh, Option.bind_some, readDigits, hvalue]
    exact congrArg some (Nat.div_add_mod' n 10)

/-- Digits alone are a decimal numeral: neither `x` nor `b` is a digit. -/
theorem readNumeral_of_digits {text : List Char} (hne : text ≠ []) (hdigits : ∀ ch ∈ text, IsDigit ch) :
    readNumeral text = readDigits 10 0 text := by
  have hx : ¬ IsDigit 'x' := by unfold IsDigit; decide
  have hb : ¬ IsDigit 'b' := by unfold IsDigit; decide
  unfold readNumeral
  split
  · exact absurd rfl hne
  · exact absurd (hdigits 'x' (by simp)) hx
  · exact absurd (hdigits 'b' (by simp)) hb
  · rfl

theorem decimal_ne_nil (fuel n : Nat) : decimal (fuel + 1) n ≠ [] := by
  simp [decimal]

theorem readNumeral_decimal {n : Nat} (h : n < 10 ^ 5) : readNumeral (decimal 5 n) = some n :=
  (readNumeral_of_digits (decimal_ne_nil 4 n) fun _ => isDigit_of_mem_decimal).trans (readDigits_decimal h)

/-! ### The pieces of a line -/

theorem splitAtChar_of_notMem {stop : Char} {text : List Char} (h : stop ∉ text) :
    splitAtChar stop text = (text, none) := by
  induction text with
  | nil => rfl
  | cons ch rest ih =>
    obtain ⟨hne, hrest⟩ := not_or.mp (mt List.mem_cons.mpr h)
    rw [splitAtChar, if_neg (Ne.symm hne), ih hrest]

theorem splitAtChar_append {stop : Char} {text : List Char} (h : stop ∉ text) (rest : List Char) :
    splitAtChar stop (text ++ stop :: rest) = (text, some rest) := by
  induction text with
  | nil => exact if_pos rfl
  | cons ch tail ih =>
    obtain ⟨hne, htail⟩ := not_or.mp (mt List.mem_cons.mpr h)
    rw [List.cons_append, splitAtChar, if_neg (Ne.symm hne), ih htail]

/-- A text that ends in another character has no blanks to drop. -/
theorem dropEndBlanks_of_getLast {text : List Char} {ch : Char} (hlast : text.getLast? = some ch) (h : ch ≠ ' ') :
    dropEndBlanks text = text := by
  obtain ⟨front, rfl⟩ := List.getLast?_eq_some_iff.mp hlast
  simp [dropEndBlanks, h]

/-- A line without a comment and without blanks at its end is its command part. -/
theorem readLine_eq_readCommand {text : List Char} {ch : Char} (hcomment : ';' ∉ text)
    (hlast : text.getLast? = some ch) (h : ch ≠ ' ') : readLine text = readCommand text := by
  rw [readLine, splitAtChar_of_notMem hcomment, dropEndBlanks_of_getLast hlast h]
  cases text with
  | nil => cases hlast
  | cons _ _ => rfl

/-- A mnemonic names itself alone, and holds neither a blank nor the beginning of a comment. -/
theorem mnemonicText_facts (m : Mnemonic) :
    (allMnemonics.find? fun m' => mnemonicText m' == mnemonicText m) = some m ∧
    ' ' ∉ mnemonicText m ∧ ';' ∉ mnemonicText m := by
  cases m <;> decide

theorem IsDigit.ne_of_not {ch ch' : Char} (h : IsDigit ch) (h' : ¬ IsDigit ch') : ch ≠ ch' := fun e => h' (e ▸ h)

theorem not_isDigit_blank : ¬ IsDigit ' ' := by
  unfold IsDigit; decide

theorem not_isDigit_semicolon : ¬ IsDigit ';' := by
  unfold IsDigit; decide

/-- Rule R70: a mnemonic alone. -/
theorem readLine_mnemonicText (m : Mnemonic) : readLine (mnemonicText m) = some (.plain m none) := by
  obtain ⟨hfind, hblank, hcomment⟩ := mnemonicText_facts m
  have hne : mnemonicText m ≠ [] := by cases m <;> decide
  have hlast := List.getLast?_eq_some_getLast hne
  rw [readLine_eq_readCommand hcomment hlast fun e => hblank (e ▸ List.getLast_mem hne), readCommand,
    splitAtChar_of_notMem hblank]
  simp only [hfind]

/-- Rule R70: a mnemonic, one space and a decimal operand. -/
theorem readLine_mnemonicText_decimal (m : Mnemonic) {n : Nat} (hn : n < 10 ^ 5) :
    readLine (mnemonicText m ++ ' ' :: decimal 5 n) = some (.plain m (some n)) := by
  obtain ⟨hfind, hblank, hcomment⟩ := mnemonicText_facts m
  have hne := decimal_ne_nil 4 n
  have hlast : (mnemonicText m ++ ' ' :: decimal 5 n).getLast? = some ((decimal 5 n).getLast hne) := by
    rw [List.getLast?_append, List.getLast?_cons, List.getLast?_eq_some_getLast hne]
    rfl
  have hcomment' : ';' ∉ mnemonicText m ++ ' ' :: decimal 5 n := by
    have hdigits : ';' ∉ decimal 5 n := fun hmem => not_isDigit_semicolon (isDigit_of_mem_decimal hmem)
    simp [hcomment, hdigits]
  have hdigit := isDigit_of_mem_decimal (List.getLast_mem hne)
  rw [readLine_eq_readCommand hcomment' hlast (hdigit.ne_of_not not_isDigit_blank), readCommand,
    splitAtChar_append hblank]
  simp only [hfind, readNumeral_decimal hn, Option.map_some]

theorem commandOperand_lt {i : Instr} {n : Nat} (h : commandOperand i = some n) : n < 10 ^ 5 := by
  cases i with
  | seth x | setw x | setc x | embed x => cases h; have := x.isLt; omega
  | rdreg r => cases h; have := r.index.isLt; omega
  | seqPut b => cases h; have := b.toNat_lt; omega
  | seqStart | seqGet | extract => cases h

/-- Settles O48: the line is read as the command's mnemonic and operand, from which the command is built. -/
theorem textOfACommandAssemblesToIt : Obligations.TextOfACommandAssemblesToIt := by
  intro i
  have hread : readLine (commandText i) = some (.plain i.mnemonic (commandOperand i)) := by
    unfold commandText
    cases hoperand : commandOperand i with
    | none => exact readLine_mnemonicText i.mnemonic
    | some n => exact readLine_mnemonicText_decimal i.mnemonic (commandOperand_lt hoperand)
  simp only [assembleText, hread, Line.assemble, buildCommand_commandOperand]

end Sys2Proof.Machine
end

section
/-! SUPPORT. UTF-8 (rule R145): what the reader accepts begins with all the bytes of one character, so it accepts exactly
the bytes of a text. -/

namespace Sys2Proof.Machine

/-! ### Continuation bytes -/

/-- The last `k` bytes of a number of which each carries 6 bits. -/
def continuationBytes : Nat → Nat → List Byte
  | 0, _ => []
  | k + 1, n => byteOf (0x80 + n / 64 ^ k % 64) :: continuationBytes k n

theorem continuationBytes_succ (k n : Nat) :
    continuationBytes (k + 1) n = byteOf (0x80 + n / 64 ^ k % 64) :: continuationBytes k n := rfl

theorem byteOf_toNat_self (b : Byte) : byteOf b.toNat = b := by
  simp [byteOf]

theorem charOf?_eq_some {least n : Nat} {c : Char} (h : charOf? least n = some c) :
    least ≤ n ∧ c.toNat = n := by
  rw [charOf?] at h
  split at h
  next hvalid =>
    obtain ⟨hleast, hrange⟩ := hvalid
    cases h
    refine ⟨hleast, ?_⟩
    rw [Char.toNat_ofNat, if_pos hrange]
  next => cases h

/-- A continuation byte, from the 6 bits it carries. -/
theorem continuationByte_eq {b : Byte} (hb : 0x80 ≤ b.toNat ∧ b.toNat < 0xC0) {n : Nat}
    (hn : n % 64 = (b.toNat - 0x80) % 64) : byteOf (0x80 + n % 64) = b := by
  rw [show 0x80 + n % 64 = b.toNat by omega, byteOf_toNat_self]

/-- Inside a character the reader takes the continuation bytes of one number, whose character it gives, and goes on. -/
theorem readTextFrom_succ_eq_some {more acc least : Nat} {bytes : List Byte} {text : List Char}
    (h : readTextFrom (more + 1) acc least bytes = some text) :
    ∃ (n : Nat) (c : Char) (rest : List Byte) (text' : List Char),
      n / 64 ^ (more + 1) = acc ∧ charOf? least n = some c ∧ bytes = continuationBytes (more + 1) n ++ rest ∧
      text = c :: text' ∧ readText rest = some text' := by
  induction more generalizing acc bytes with
  | zero =>
    cases bytes with
    | nil => cases h
    | cons b rest =>
      simp only [readTextFrom] at h
      split at h
      next hb =>
        rw [if_pos trivial] at h
        split at h
        next c hc =>
          obtain ⟨text', htext, rfl⟩ := Option.map_eq_some_iff.mp h
          refine ⟨acc * 64 + (b.toNat - 0x80), c, rest, text', by omega, hc, ?_, rfl, htext⟩
          rw [continuationBytes_succ, Nat.pow_zero, Nat.div_one, continuationByte_eq hb (by omega)]
          rfl
        next => cases h
      next => cases h
  | succ more ih =>
    cases bytes with
    | nil => cases h
    | cons b rest =>
      simp only [readTextFrom] at h
      split at h
      next hb =>
        rw [if_neg (by omega)] at h
        obtain ⟨n, c, rest', text', hacc, hc, rfl, htext, hrest⟩ := ih h
        refine ⟨n, c, rest', text', ?_, hc, ?_, htext, hrest⟩
        · rw [Nat.pow_succ, ← Nat.div_div_eq_div_mul, hacc]
          omega
        · rw [continuationBytes_succ (more + 1), hacc, continuationByte_eq hb (by omega)]
          rfl
      next => cases h

/-! ### One character -/

/-- The bytes of a character by its number: those of its lead byte and the continuation bytes. -/
theorem charBytes_eq (c : Char) :
    charBytes c =
      if c.toNat < 0x80 then [byteOf c.toNat]
      else if c.toNat < 0x800 then byteOf (0xC0 + c.toNat / 64 ^ 1) :: continuationBytes 1 c.toNat
      else if c.toNat < 0x10000 then byteOf (0xE0 + c.toNat / 64 ^ 2) :: continuationBytes 2 c.toNat
      else byteOf (0xF0 + c.toNat / 64 ^ 3) :: continuationBytes 3 c.toNat := by
  simp [charBytes, continuationBytes]

/-- The text begins with a character, the bytes with all of its bytes, and what follows is read as the rest. -/
def BeginsWithACharacter (bytes : List Byte) (text : List Char) : Prop :=
  ∃ (c : Char) (rest : List Byte) (text' : List Char),
    bytes = charBytes c ++ rest ∧ text = c :: text' ∧ readText rest = some text'

/-- A byte that is a character by itself. -/
theorem beginsWithACharacter_of_single {b : Byte} (hb : b.toNat < 0x80) {rest : List Byte} {text : List Char}
    (h : (readText rest).map (Char.ofNat b.toNat :: ·) = some text) : BeginsWithACharacter (b :: rest) text := by
  obtain ⟨text', htext, rfl⟩ := Option.map_eq_some_iff.mp h
  have hvalid : (Char.ofNat b.toNat).toNat = b.toNat := by
    rw [Char.toNat_ofNat, if_pos (Or.inl (by omega))]
  refine ⟨Char.ofNat b.toNat, rest, text', ?_, rfl, htext⟩
  rw [charBytes_eq, hvalid, if_pos hb, byteOf_toNat_self]
  rfl

/-- A lead byte and the continuation bytes after it, where together they are the bytes of their character. -/
theorem beginsWithACharacter_of_lead {b : Byte} {more acc least : Nat} {rest : List Byte} {text : List Char}
    (hchar : ∀ c : Char, least ≤ c.toNat → c.toNat / 64 ^ (more + 1) = acc →
      charBytes c = b :: continuationBytes (more + 1) c.toNat)
    (h : readTextFrom (more + 1) acc least rest = some text) : BeginsWithACharacter (b :: rest) text := by
  obtain ⟨n, c, rest', text', hacc, hc, rfl, rfl, hrest⟩ := readTextFrom_succ_eq_some h
  obtain ⟨hleast, rfl⟩ := charOf?_eq_some hc
  exact ⟨c, rest', text', by rw [hchar c hleast hacc]; rfl, rfl, hrest⟩

/-- What the reader accepts begins with a character, one case per line of the reader. -/
theorem readText_cons_eq_some {b : Byte} {rest : List Byte} {text : List Char}
    (h : readText (b :: rest) = some text) : BeginsWithACharacter (b :: rest) text := by
  have lead {x y : Nat} (hxy : y + (b.toNat - y) = b.toNat) (hx : x = b.toNat - y) : byteOf (y + x) = b := by
    rw [hx, hxy, byteOf_toNat_self]
  rw [readText, ← byteOf_toNat_self b, readTextFrom_lead b.isLt] at h
  split at h
  next hb => exact beginsWithACharacter_of_single hb h
  next h80 =>
  split at h
  next => cases h
  next hC0 =>
  split at h
  next hE0 =>
    refine beginsWithACharacter_of_lead (fun c hleast hacc => ?_) h
    rw [charBytes_eq, if_neg (by omega), if_pos (by omega), lead (by omega) hacc]
  next hE0 =>
  split at h
  next hF0 =>
    refine beginsWithACharacter_of_lead (fun c hleast hacc => ?_) h
    rw [charBytes_eq, if_neg (by omega), if_neg (by omega), if_pos (by omega), lead (by omega) hacc]
  next hF0 =>
  split at h
  next hF8 =>
    refine beginsWithACharacter_of_lead (fun c hleast hacc => ?_) h
    rw [charBytes_eq, if_neg (by omega), if_neg (by omega), if_neg (by omega), lead (by omega) hacc]
  next => cases h

/-! ### A whole text -/

/-- The bytes of a text are read as that text. -/
theorem readText_textBytes (text : List Char) : readText (textBytes text) = some text := by
  induction text with
  | nil => rfl
  | cons c rest ih =>
    have hcons : textBytes (c :: rest) = charBytes c ++ textBytes rest := List.flatMap_cons
    rw [hcons, readText_charBytes, ih]
    rfl

theorem charBytes_length_pos (c : Char) : 0 < (charBytes c).length := by
  rw [charBytes_eq]
  split_ifs <;> exact Nat.succ_pos _

/-- Bytes that are read as a text are its bytes. -/
theorem textBytes_of_readText {bytes : List Byte} {text : List Char} (h : readText bytes = some text) :
    textBytes text = bytes := by
  induction hlength : bytes.length using Nat.strong_induction_on generalizing bytes text with
  | _ length ih =>
    cases bytes with
    | nil =>
      cases h
      rfl
    | cons b rest =>
      obtain ⟨c, rest', text', hbytes, rfl, hrest⟩ := readText_cons_eq_some h
      have hpos := charBytes_length_pos c
      have hshorter : rest'.length < length := by
        rw [← hlength, hbytes, List.length_append]
        omega
      rw [hbytes, ← ih _ hshorter hrest rfl]
      exact List.flatMap_cons

/-- Settles O54: the reader undoes the bytes of a text, and gives no text but that of the bytes it accepts. -/
theorem textIsReadFromExactlyItsBytes : Obligations.TextIsReadFromExactlyItsBytes := fun _ text =>
  ⟨textBytes_of_readText, fun h => h ▸ readText_textBytes text⟩

end Sys2Proof.Machine
end

section
/-! SUPPORT. The Message Framer's embedding seen from the ports: what the host sends, places and takes back, action by action
and then frame by frame (rules R72 and R141). -/

namespace Sys2Proof.Machine

/-! ### What the host does -/

/-- Between `s` and `t` the block has taken these command words, and the host has placed these frames and taken these samples
back, each in this order. -/
def Shows (s t : State) (words : List Word) (placed : List Frame) (taken : List Byte) : Prop :=
  ∃ es, t.trace = s.trace ++ es ∧ es.filterMap Event.commandWord = words ∧
    es.filterMap Event.placedFrame = placed ∧ es.filterMap Event.takenSample = taken

section
variable {s t u : State} {words words' : List Word} {placed placed' : List Frame} {taken taken' : List Byte}

theorem Shows.eventsSince (h : Shows s t words placed taken) :
    (eventsSince s t).filterMap Event.commandWord = words ∧ (eventsSince s t).filterMap Event.placedFrame = placed ∧
    (eventsSince s t).filterMap Event.takenSample = taken := by
  obtain ⟨es, htrace, hes⟩ := h
  rw [Machine.eventsSince, htrace, List.drop_left]
  exact hes

theorem Shows.refl (s : State) : Shows s s [] [] [] := ⟨[], (List.append_nil _).symm, rfl, rfl, rfl⟩

theorem Shows.trans (h : Shows s t words placed taken) (h' : Shows t u words' placed' taken') :
    Shows s u (words ++ words') (placed ++ placed') (taken ++ taken') := by
  obtain ⟨es, htrace, rfl, rfl, rfl⟩ := h
  obtain ⟨es', htrace', rfl, rfl, rfl⟩ := h'
  exact ⟨es ++ es', by rw [htrace', htrace, List.append_assoc], List.filterMap_append, List.filterMap_append,
    List.filterMap_append⟩

end

/-- The block's accesses are none of the host's doing. -/
theorem Event.host_none_of_isAccess {e : Event} (h : e.isAccess = true) :
    e.commandWord = none ∧ e.placedFrame = none ∧ e.takenSample = none := by
  cases e with
  | read | write => exact ⟨rfl, rfl, rfl⟩
  | _ => cases h

/-- Sending a command that completes. -/
theorem drive_send_cons (i : Instr) (as : List HostAction) (s : State) :
    drive (send i :: as) s = drive as ((s.emit (.command (encode i))).afterCommand i) :=
  drive_send (exec_eq i _) as

/-- Events that are none of the host's doing. -/
theorem Shows.of_block {s t : State} {es : List Event} (htrace : t.trace = s.trace ++ es)
    (hes : ∀ e ∈ es, e.commandWord = none ∧ e.placedFrame = none ∧ e.takenSample = none) : Shows s t [] [] [] := by
  refine ⟨es, htrace, ?_, ?_, ?_⟩ <;> refine List.filterMap_eq_nil_iff.mpr fun e he => ?_ <;>
    obtain ⟨hword, hplaced, htaken⟩ := hes e he
  · exact hword
  · exact hplaced
  · exact htaken

theorem shows_afterCommand (i : Instr) (s : State) :
    Shows s ((s.emit (.command (encode i))).afterCommand i) [encode i] [] [] := by
  have hword : Shows s (s.emit (.command (encode i))) [encode i] [] [] := ⟨[.command (encode i)], rfl, rfl, rfl, rfl⟩
  refine hword.trans (.of_block (State.afterCommand_trace _ i) fun e he => ?_)
  rcases List.mem_append.mp he with haccess | hresponse
  · exact Event.host_none_of_isAccess (isAccess_of_mem haccess)
  · obtain rfl := List.mem_singleton.mp hresponse
    exact ⟨rfl, rfl, rfl⟩

theorem shows_hostLoad (frame : Frame) (s : State) : Shows s (hostLoad frame s) [] [frame] [] :=
  ⟨[.hostLoad frame], rfl, rfl, rfl, rfl⟩

theorem shows_takeFrame (n : Nat) (s : State) : Shows s (takeFrame n s).2 [] [] (takeFrame n s).1 := by
  refine ⟨(List.range n).map fun a => .hostRead a (s.mem.read a), by rw [takeFrame_eq], ?_, ?_, ?_⟩ <;>
    rw [List.filterMap_map]
  · exact List.filterMap_eq_nil_iff.mpr fun _ _ => rfl
  · exact List.filterMap_eq_nil_iff.mpr fun _ _ => rfl
  · exact congrFun List.filterMap_eq_map _

/-- Sending commands one after the other shows their words and nothing else of the host. -/
theorem shows_drive_send (is : List Instr) (s : State) : Shows s (drive (is.map send) s) (is.map encode) [] [] := by
  induction is generalizing s with
  | nil => exact Shows.refl s
  | cons i rest ih =>
    rw [List.map_cons, drive_send_cons]
    exact (shows_afterCommand i s).trans (ih _)

/-- Rule R141: the shape, once. -/
theorem shows_configure (sh : Shape) (s : State) :
    Shows s (configure sh s) ([Instr.seth sh.h, .setw sh.w, .setc sh.c].map encode) [] [] :=
  shows_drive_send (setShapeCommands sh.h sh.w sh.c) s

/-- Placing a frame and sending one command. -/
theorem shows_loadFrame_send (frame : Frame) (i : Instr) (s : State) :
    Shows s (drive [.loadFrame frame, send i] s) [encode i] [frame] [] := by
  rw [drive_loadFrame, drive_send_cons]
  exact (shows_hostLoad frame s).trans (shows_afterCommand i _)

/-! ### One frame -/

/-- The word of the one `EMBED` that a frame with a unit gets. -/
def embedWords (unit : Option Byte) : List Word := unit.toList.map fun v => encode (.embed v)

/-- Rule R141: what is taken back of a frame is what goes to the sink. -/
theorem embedFrame_shows {s : State} (h : 8 ≤ s.sampleCount) (unit : Option Byte) (frame : Frame) :
    ∃ t, embedFrame unit frame s = (some (frame.carrying unit), t) ∧ t.sampleCount = s.sampleCount ∧
      Shows s t (embedWords unit) [frame] (frame.carrying unit) := by
  obtain ⟨t, hembed, hcount⟩ := embedFrame_of_le h frame unit
  refine ⟨t, hembed, hcount, ?_⟩
  cases unit with
  | some v =>
    have hbyte : embedByte frame v s = _ := hembed
    rw [embedByte_eq h] at hbyte
    obtain rfl := congrArg Prod.snd hbyte
    have htaken := shows_takeFrame frame.length (s.afterPlaceAndEmbed frame v)
    rw [congrArg Prod.fst (takeFrame_eq ..), State.read_afterPlaceAndEmbed_range h] at htaken
    rw [← drive_loadFrame_embed h] at htaken ⊢
    exact (shows_loadFrame_send frame (.embed v) s).trans htaken
  | none =>
    obtain rfl : (passFrame frame s).2 = t := congrArg Prod.snd hembed
    have htaken := shows_takeFrame frame.length (hostLoad frame s)
    rw [show (takeFrame frame.length (hostLoad frame s)).1 = frame from passFrame_fst frame s] at htaken
    exact (shows_hostLoad frame s).trans htaken

/-- With fewer than 8 samples `EMBED` is answered with an error, and nothing is taken back. -/
theorem embedByte_of_lt {s : State} (h : s.sampleCount < 8) (frame : Frame) (v : Byte) :
    embedByte frame v s = (none, drive [.loadFrame frame, send (.embed v)] s) := by
  have hplaced : ((hostLoad frame s).emit (.command (encode (.embed v)))).sampleCount < 8 := h
  have hresponse : lastResponse (drive [.loadFrame frame, send (.embed v)] s) = some 0x20000000 := by
    rw [drive_loadFrame, drive_send_cons, State.afterCommand_frameCodec_of_lt (.inr ⟨v, rfl⟩) hplaced]
    exact lastResponse_of_trace rfl
  rw [embedByte, hresponse]
  rfl

/-! ### The stream -/

/-- The units of a message, one for each frame that carries one (rules R133 and R138). -/
def messageUnits (message : List Byte) : List Byte := BitVec.ofNat 8 message.length :: message

theorem take_drop_messageUnits (message : List Byte) (p n : Nat) :
    ((messageUnits message).drop p).take (n + 1) =
      (unitAt message p).toList ++ ((messageUnits message).drop (p + 1)).take n := by
  have hunit : unitAt message p = (messageUnits message)[p]? := unitAt_eq_getElem? message p
  rcases Nat.lt_or_ge p (messageUnits message).length with hlt | hge
  · rw [hunit, List.drop_eq_getElem_cons hlt, List.take_succ_cons, List.getElem?_eq_getElem hlt]
    rfl
  · rw [hunit, List.drop_eq_nil_of_le hge, List.drop_eq_nil_of_le (Nat.le_succ_of_le hge), List.getElem?_eq_none hge,
      List.take_nil, List.take_nil]
    rfl

/-- Rule R141, from position `p` on: one `EMBED` for each unit that is left, as far as the frames reach, every frame through
frame memory, and the sink gets what is taken back. -/
theorem embedFrames_shows (message : List Byte) (frames : List Frame) (p : Nat) {s : State} (h : 8 ≤ s.sampleCount) :
    ∃ sink t, embedFrames message p frames s = (⟨sink, none⟩, t) ∧
      Shows s t ((((messageUnits message).drop p).take frames.length).map fun v => encode (.embed v)) frames
        sink.flatten := by
  induction frames generalizing p s with
  | nil => exact ⟨[], s, rfl, Shows.refl s⟩
  | cons frame rest ih =>
    obtain ⟨t, hframe, hcount, hshows⟩ := embedFrame_shows h (unitAt message p) frame
    obtain ⟨sink, u, hrest, hshows'⟩ := ih (p + 1) (h.trans_eq hcount.symm)
    refine ⟨frame.carrying (unitAt message p) :: sink, u, ?_, ?_⟩
    · rw [embedFrames, hframe]
      simp only [hrest]
    · rw [List.length_cons, take_drop_messageUnits, List.map_append]
      exact hshows.trans hshows'

/-- Settles O53: with 8 samples every frame is taken through frame memory, and with fewer the first `EMBED` is the last. -/
theorem embeddingTakesEveryFrameThroughFrameMemory : Obligations.EmbeddingTakesEveryFrameThroughFrameMemory := by
  intro sh message frames s hlen hfit
  have hfits : ¬ messageTooLong message frames = true := by
    rw [messageTooLong_iff]
    omega
  have hconfigure := shows_configure sh s
  have hcount := configure_sampleCount sh s
  rcases Nat.lt_or_ge sh.samples 8 with hlt | hle
  · obtain ⟨first, rest, rfl⟩ := List.exists_cons_of_length_pos (Nat.zero_lt_of_lt hfit)
    have hfirst := embedByte_of_lt (hcount.trans_lt hlt) first (BitVec.ofNat 8 message.length)
    have hrun : embedMessage sh message (first :: rest) s = (⟨[], some .insufficientFrameBits⟩,
        drive [.loadFrame first, send (.embed (BitVec.ofNat 8 message.length))] (configure sh s)) := by
      rw [embedMessage, if_neg hfits, embedFrames, unitAt, embedFrame, hfirst]
    refine ⟨_, _, hrun, fun hle => absurd hlt (Nat.not_lt.mpr hle), fun _ => ⟨rfl, ?_⟩⟩
    exact (hconfigure.trans (shows_loadFrame_send first _ _)).eventsSince
  · obtain ⟨sink, t, hstream, hshows⟩ := embedFrames_shows message frames 0 (hle.trans_eq hcount.symm)
    have hall : ((messageUnits message).drop 0).take frames.length = messageUnits message :=
      List.take_of_length_le hfit
    refine ⟨_, t, (if_neg hfits).trans hstream, fun _ => ⟨rfl, ?_⟩, fun hlt => absurd hlt (Nat.not_lt.mpr hle)⟩
    rw [hall] at hshows
    rw [List.map_append, List.map_map]
    exact (hconfigure.trans hshows).eventsSince

end Sys2Proof.Machine
end

section
/-! SUPPORT. The Message Framer's decoding: what `extract_byte` gives of a frame (rule R72), the stream frame by frame (rules
R142 to R146), and the three properties of rule R149 that the host can see. -/

namespace Sys2Proof.Machine

/-! ### The unit of a frame -/

/-- The value that `EXTRACT` gives of the first 8 samples of a frame, a missing one being zero (rule R72). -/
def Frame.unit (frame : Frame) : Byte :=
  (State.reset.mem.load ((List.range 8).map fun a => frame.getD a 0)).extracted

theorem Frame.unitBit_unit (frame : Frame) {i : Nat} (hi : i < 8) : unitBit frame.unit i = lsb (frame.getD i 0) := by
  rw [Frame.unit, Memory.unitBit_extracted _ hi, Memory.read_load]
  simp [hi]

/-- A frame of at least 8 samples, placed in frame memory, has its unit extracted. -/
theorem extracted_load (m : Memory) {frame : Frame} (h : 8 ≤ frame.length) : (m.load frame).extracted = frame.unit :=
  Memory.extracted_eq fun a ha => by
    rw [frame.unitBit_unit ha, Memory.read_load, List.getElem?_eq_getElem (ha.trans_le h),
      List.getD_eq_getElem _ _ (ha.trans_le h)]
    rfl

/-- What a frame carries after a unit has been written into it (rules R106 and R138). -/
theorem Frame.unit_withUnit {frame : Frame} (h : 8 ≤ frame.length) (v : Byte) : (frame.withUnit v).unit = v :=
  eq_of_unitBit_eq fun i hi => by
    have hlt : i < (frame.withUnit v).length := by
      rw [Frame.withUnit, List.length_mapIdx]
      omega
    rw [Frame.unitBit_unit _ hi, List.getD_eq_getElem _ _ hlt]
    simp only [Frame.withUnit, List.getElem_mapIdx, if_pos hi, lsb_setLsb]

/-! ### One frame -/

/-- A Payload Unit stands in the lowest bits of its response (table T7). -/
theorem extractLsb'_setWidth (v : Byte) : (v.setWidth 32).extractLsb' 0 8 = v := by
  apply BitVec.eq_of_getLsbD_eq
  intro k hk
  rw [BitVec.getLsbD_extractLsb', BitVec.getLsbD_setWidth, Nat.zero_add, decide_eq_true hk,
    decide_eq_true (hk.trans (by decide : 8 < 32)), Bool.true_and, Bool.true_and]

/-- Rule R72: in a frame of at least 8 samples `extract_byte` answers the value of `EXTRACT`. -/
theorem extractByte_of_le {s : State} (h : 8 ≤ s.sampleCount) (frame : Frame) :
    extractByte frame s = (some (s.mem.load frame).extracted, drive [.loadFrame frame, send .extract] s) := by
  have hplaced : 8 ≤ ((hostLoad frame s).emit (.command (encode .extract))).sampleCount := h
  have hresponse : lastResponse (drive [.loadFrame frame, send .extract] s) =
      some ((s.mem.load frame).extracted.setWidth 32) := by
    rw [drive_loadFrame, drive_send_cons, State.afterCommand_extract_of_le hplaced]
    exact lastResponse_of_trace (List.append_assoc ..).symm
  have hstatus : responseStatus ((s.mem.load frame).extracted.setWidth 32) = 0 := by
    rw [← responseWord_ok_byte]
    exact responseStatus_responseWord .ok _
  have hdata := extractLsb'_setWidth (s.mem.load frame).extracted
  simp only [extractByte, hresponse, hstatus, hdata, if_true]

theorem extractByte_of_lt {s : State} (h : s.sampleCount < 8) (frame : Frame) :
    extractByte frame s = (none, drive [.loadFrame frame, send .extract] s) := by
  have hplaced : ((hostLoad frame s).emit (.command (encode .extract))).sampleCount < 8 := h
  have hresponse : lastResponse (drive [.loadFrame frame, send .extract] s) = some 0x20000000 := by
    rw [drive_loadFrame, drive_send_cons, State.afterCommand_frameCodec_of_lt (.inl rfl) hplaced]
    exact lastResponse_of_trace rfl
  rw [extractByte, hresponse]
  rfl

/-- Decoding keeps the shape. -/
theorem drive_loadFrame_extract_sampleCount {s : State} (h : 8 ≤ s.sampleCount) (frame : Frame) :
    (drive [.loadFrame frame, send .extract] s).sampleCount = s.sampleCount := by
  have hplaced : 8 ≤ ((hostLoad frame s).emit (.command (encode .extract))).sampleCount := h
  rw [drive_loadFrame, drive_send_cons, State.afterCommand_extract_of_le hplaced]
  simp [drive, hostLoad]

/-! ### The stream -/

/-- Rules R143 and R144: one byte from each of up to `n` frames, those and no other placed, one `EXTRACT` each. -/
theorem extractFrames_of_le (n : Nat) (frames : List Frame) {s : State} (h : 8 ≤ s.sampleCount) :
    ∃ bytes t, extractFrames n frames s = (some bytes, t) ∧ bytes.length = min n frames.length ∧
      ((∀ frame ∈ frames, 8 ≤ frame.length) → bytes = (frames.take n).map Frame.unit) ∧
      Shows s t (List.replicate (frames.take n).length (encode .extract)) (frames.take n) [] := by
  induction n generalizing frames s with
  | zero => exact ⟨[], s, rfl, (Nat.zero_min _).symm, fun _ => rfl, Shows.refl s⟩
  | succ n ih =>
    cases frames with
    | nil => exact ⟨[], s, rfl, rfl, fun _ => rfl, Shows.refl s⟩
    | cons frame rest =>
      have hshows := shows_loadFrame_send frame .extract s
      obtain ⟨bytes, t, hrest, hlength, hunits, hshows'⟩ :=
        ih rest (h.trans_eq (drive_loadFrame_extract_sampleCount h frame).symm)
      refine ⟨(s.mem.load frame).extracted :: bytes, t, ?_, ?_, fun hall => ?_, hshows.trans hshows'⟩
      · rw [extractFrames, extractByte_of_le h]
        simp only [hrest, Option.map_some]
      · rw [List.length_cons, List.length_cons, hlength, Nat.succ_min_succ]
      · obtain ⟨hframe, hrestlong⟩ := List.forall_mem_cons.mp hall
        rw [extracted_load _ hframe, hunits hrestlong]
        rfl

/-- Decoding is the length frame, then the frames it counts, then the final step. -/
theorem decodeMessage_cons {sh : Shape} {first : Frame} {rest : List Frame} {s t u : State} {count : Byte}
    {bytes : List Byte} (hfirst : extractByte first (configure sh s) = (some count, t))
    (hrest : extractFrames count.toNat rest t = (some bytes, u)) :
    decodeMessage sh (first :: rest) s = (finishDecoding count.toNat bytes, u) := by
  simp only [decodeMessage, hfirst, hrest]

/-- Rules R142 to R146: with 8 samples decoding reads a count from the first frame and that many bytes, as far as the frames
reach. -/
theorem decodeMessage_of_le {sh : Shape} (h : 8 ≤ sh.samples) (first : Frame) (rest : List Frame) (s : State) :
    ∃ (count : Byte) (bytes : List Byte) (t : State),
      decodeMessage sh (first :: rest) s = (finishDecoding count.toNat bytes, t) ∧
      bytes.length = min count.toNat rest.length ∧
      ((∀ frame ∈ first :: rest, 8 ≤ frame.length) →
        count = first.unit ∧ bytes = (rest.take count.toNat).map Frame.unit) ∧
      Shows s t
        (([Instr.seth sh.h, .setw sh.w, .setc sh.c] ++
          List.replicate ((rest.take count.toNat).length + 1) Instr.extract).map encode)
        (first :: rest.take count.toNat) [] := by
  have hcount := h.trans_eq (configure_sampleCount sh s).symm
  have hfirst := extractByte_of_le hcount first
  generalize hvalue : ((configure sh s).mem.load first).extracted = count at hfirst
  obtain ⟨bytes, t, hrest, hlength, hunits, hshows⟩ := extractFrames_of_le count.toNat rest
    (hcount.trans_eq (drive_loadFrame_extract_sampleCount hcount first).symm)
  refine ⟨count, bytes, t, decodeMessage_cons hfirst hrest, hlength, fun hall => ?_, ?_⟩
  · obtain ⟨hlong, hrestlong⟩ := List.forall_mem_cons.mp hall
    exact ⟨hvalue.symm.trans (extracted_load _ hlong), hunits hrestlong⟩
  · rw [List.map_append, List.map_replicate, List.replicate_succ]
    exact (shows_configure sh s).trans ((shows_loadFrame_send first .extract _).trans hshows)

/-- With fewer than 8 samples the first `EXTRACT` is answered with an error. -/
theorem decodeMessage_of_lt {sh : Shape} (h : sh.samples < 8) (first : Frame) (rest : List Frame) (s : State) :
    ∃ t, decodeMessage sh (first :: rest) s = (.failed .insufficientFrameBits, t) ∧
      Shows s t ([Instr.seth sh.h, .setw sh.w, .setc sh.c, .extract].map encode) [first] [] := by
  have hfirst := extractByte_of_lt ((configure_sampleCount sh s).trans_lt h) first
  refine ⟨drive [.loadFrame first, send .extract] (configure sh s), ?_,
    (shows_configure sh s).trans (shows_loadFrame_send first .extract _)⟩
  rw [decodeMessage, hfirst]

/-- Settles O55: the count is the first frame's unit, and the bytes are the units of the frames that are read. -/
theorem decodingReadsTheLengthAndThenTheText : Obligations.DecodingReadsTheLengthAndThenTheText := by
  intro sh first rest s hall
  rcases Nat.lt_or_ge sh.samples 8 with hlt | hle
  · obtain ⟨t, hrun, hshows⟩ := decodeMessage_of_lt hlt first rest s
    obtain ⟨-, -, htaken⟩ := hshows.eventsSince
    exact ⟨_, t, Frame.unit, hrun, fun frame k hk => frame.unitBit_unit hk, htaken,
      fun hle => absurd hlt (Nat.not_lt.mpr hle), fun _ => rfl⟩
  · obtain ⟨count, bytes, t, hrun, hlength, hunits, hshows⟩ := decodeMessage_of_le hle first rest s
    obtain ⟨rfl, hbytes⟩ := hunits hall
    obtain ⟨hwords, hplaced, htaken⟩ := hshows.eventsSince
    refine ⟨_, t, Frame.unit, hrun, fun frame k hk => frame.unitBit_unit hk, htaken,
      fun _ => ⟨?_, hplaced, hwords⟩, fun hlt => absurd hlt (Nat.not_lt.mpr hle)⟩
    have hshort : (bytes.length < first.unit.toNat) = (rest.length < first.unit.toNat) := by
      rw [hlength, min_lt_iff, eq_iff_iff]
      omega
    rw [← hbytes, finishDecoding]
    cases readText bytes with
    | none => rfl
    | some text => simp only [hshort]

/-! ### The whole system -/

/-- What the final step says of the bytes it was given. -/
theorem finishDecoding_cases (n : Nat) (bytes : List Byte) :
    finishDecoding n bytes = .failed .invalidEncodedText ∨
    ∃ text, textBytes text = bytes ∧
      finishDecoding n bytes = if bytes.length < n then .truncatedPayload bytes text else .message text := by
  unfold finishDecoding
  cases hread : readText bytes with
  | none => exact .inl rfl
  | some text => exact .inr ⟨text, textBytes_of_readText hread, rfl⟩

/-- Settles O57: the outcome is that of the final step, on at most as many bytes as a count and the frames allow. -/
theorem decodingArbitraryFramesHasThreeOutcomes : Obligations.DecodingArbitraryFramesHasThreeOutcomes := by
  intro sh frames s hle
  cases frames with
  | nil =>
    refine ⟨rfl, fun bytes text h => ?_, fun text h => ?_⟩
    · obtain ⟨rfl, rfl⟩ := DecodeResult.truncatedPayload.inj h
      exact ⟨by decide, rfl⟩
    · cases h
  | cons first rest =>
    obtain ⟨count, bytes, t, hrun, hlength, -, -⟩ := decodeMessage_of_le hle first rest s
    have hcount := count.isLt
    rw [hrun]
    refine ⟨finishDecoding_allowed _ _, fun bytes' text' h => ?_, fun text' h => ?_⟩ <;>
      rcases finishDecoding_cases count.toNat bytes with hinvalid | ⟨text, htext, houtcome⟩
    · rw [hinvalid] at h
      cases h
    · rw [houtcome] at h
      split at h
      next hshort =>
        obtain ⟨rfl, rfl⟩ := DecodeResult.truncatedPayload.inj h
        exact ⟨by omega, htext⟩
      next => cases h
    · rw [hinvalid] at h
      cases h
    · rw [houtcome] at h
      split at h
      next => cases h
      next hwhole =>
        cases h
        rw [htext, List.length_cons]
        omega

theorem Frame.length_carrying (frame : Frame) (unit : Option Byte) : (frame.carrying unit).length = frame.length := by
  cases unit with
  | none => rfl
  | some v => exact List.length_mapIdx

/-- The frames of a stream after its length frame, as the sink gets them (rules R138 and R139). -/
def carryingMessage (message : List Byte) (frames : List Frame) : List Frame :=
  frames.mapIdx fun k frame => frame.carrying message[k]?

theorem forall_mem_carryingMessage {message : List Byte} {frames : List Frame} (h : ∀ frame ∈ frames, 8 ≤ frame.length) :
    ∀ frame ∈ carryingMessage message frames, 8 ≤ frame.length := by
  intro frame hframe
  obtain ⟨k, hk, rfl⟩ := List.mem_mapIdx.mp hframe
  rw [Frame.length_carrying]
  exact h _ (List.getElem_mem hk)

/-- As far as the message reaches, the units of such frames are the message. -/
theorem units_carryingMessage {message : List Byte} {frames : List Frame} (h : ∀ frame ∈ frames, 8 ≤ frame.length)
    (hfit : message.length ≤ frames.length) :
    ((carryingMessage message frames).take message.length).map Frame.unit = message := by
  have hlength : (((carryingMessage message frames).take message.length).map Frame.unit).length = message.length := by
    rw [List.length_map, List.length_take, carryingMessage, List.length_mapIdx, Nat.min_eq_left hfit]
  apply List.ext_getElem hlength
  intro k hk hk'
  have hlong := h _ (List.getElem_mem (hk'.trans_le hfit))
  simp only [List.getElem_map, List.getElem_take, carryingMessage, List.getElem_mapIdx,
    List.getElem?_eq_getElem hk', Frame.carrying, Frame.unit_withUnit hlong]

/-- Rules R138 and R139 for a stream with a first frame: it carries the length, the others the message. -/
theorem embedMessage_of_le {sh : Shape} (h : 8 ≤ sh.samples) {message : List Byte} {first : Frame} {rest : List Frame}
    (hlen : message.length ≤ 255) (hfit : message.length ≤ rest.length) (s : State) :
    ∃ t, embedMessage sh message (first :: rest) s =
      (⟨first.withUnit (BitVec.ofNat 8 message.length) :: carryingMessage message rest, none⟩, t) := by
  have hfits : ¬ messageTooLong message (first :: rest) = true := by
    rw [messageTooLong_iff, List.length_cons]
    omega
  obtain ⟨t, hrun⟩ := embedFrames_of_le message (first :: rest) 0 (h.trans_eq (configure_sampleCount sh s).symm)
  refine ⟨t, ((if_neg hfits).trans hrun).trans ?_⟩
  simp only [Nat.zero_add, List.mapIdx_cons]
  rfl

/-- Rules R142 to R145 on such a stream: the count is the length, and the bytes are the message. -/
theorem decodeMessage_carryingMessage {sh : Shape} (h : 8 ≤ sh.samples) {message : List Byte} {first : Frame}
    {rest : List Frame} (hfirst : 8 ≤ first.length) (hrest : ∀ frame ∈ rest, 8 ≤ frame.length)
    (hlen : message.length ≤ 255) (hfit : message.length ≤ rest.length) (s : State) :
    ∃ t, decodeMessage sh (first.withUnit (BitVec.ofNat 8 message.length) :: carryingMessage message rest) s =
      (finishDecoding message.length message, t) := by
  have hsink : ∀ frame ∈ first.withUnit (BitVec.ofNat 8 message.length) :: carryingMessage message rest,
      8 ≤ frame.length :=
    List.forall_mem_cons.mpr ⟨hfirst.trans_eq (first.length_carrying (some _)).symm, forall_mem_carryingMessage hrest⟩
  obtain ⟨count, bytes, t, hrun, -, hunits, -⟩ := decodeMessage_of_le h _ _ s
  obtain ⟨hcount, hbytes⟩ := hunits hsink
  have hlength : count.toNat = message.length := by
    rw [hcount, Frame.unit_withUnit hfirst, toNat_ofNat_of_le (by decide) hlen]
  rw [hlength, units_carryingMessage hrest hfit] at hbytes
  rw [hlength, hbytes] at hrun
  exact ⟨t, hrun⟩

theorem finishDecoding_textBytes (text : List Char) :
    finishDecoding (textBytes text).length (textBytes text) = .message text := by
  rw [finishDecoding, readText_textBytes]
  exact if_neg (Nat.lt_irrefl _)

/-- Settles O56: the sink of embedding carries the units of the message, whose bytes are read as the text. -/
theorem decodingAnEmbeddedMessageGivesItBack : Obligations.DecodingAnEmbeddedMessageGivesItBack := by
  intro sh text frames s s' hle hframes hlen hfit
  obtain ⟨first, rest, rfl⟩ := List.exists_cons_of_length_pos (Nat.zero_lt_of_lt hfit)
  have hlong : ∀ frame ∈ first :: rest, 8 ≤ frame.length := fun frame hframe => hle.trans_eq (hframes frame hframe).symm
  obtain ⟨hfirst, hrest⟩ := List.forall_mem_cons.mp hlong
  have hfit' : (textBytes text).length ≤ rest.length := Nat.le_of_succ_le_succ hfit
  obtain ⟨t, hembed⟩ := embedMessage_of_le (first := first) hle hlen hfit' s
  obtain ⟨u, hdecode⟩ := decodeMessage_carryingMessage hle hfirst hrest hlen hfit' s'
  rw [finishDecoding_textBytes] at hdecode
  simp only [decodeEncodedText, encodeText, hembed, hdecode]
  exact ⟨_, rfl⟩

end Sys2Proof.Machine
end

section
/-! SUPPORT. The functions of the source on the block (table T11, rule R72): `embed_byte`, `extract_byte`, and `SEQ.GET` until
the end of the sequence. -/

namespace Sys2Proof.Machine

/-! ### Collecting the sequence -/

/-- A `SEQ.GET` that is sent with the walk at a position or at the end. -/
theorem drive_send_seqGet_placeWalk (s : State) (j : Nat) :
    drive [send .seqGet] (s.placeWalk (min j s.sampleCount)) =
      ((s.emit (.command (encode .seqGet))).record s.mem
        (bitCommandEvents s.mem s.sampleCount j .seqGet)).placeWalk (min (j + 1) s.sampleCount) := by
  have hexec := exec_bitCommand_placeWalk (i := .seqGet) rfl (s.emit (.command (encode .seqGet))) j
  have hkeeps : s.mem.afterBitCommand s.sampleCount j .seqGet = s.mem :=
    s.mem.afterBitRun_replicate_seqGet s.sampleCount j 1
  rw [State.emit_mem, State.sampleCount_emit, hkeeps] at hexec
  exact drive_send hexec []

section
variable {fuel : Nat} {s t : State} {r : Word} (hsent : drive [send .seqGet] s = t) (hanswer : lastResponse t = some r)
include hsent hanswer

theorem collectBits_of_ok (hok : responseStatus r = 0) :
    (collectBits (fuel + 1) s).1 = r.getLsbD 0 :: (collectBits fuel t).1 := by
  simp only [collectBits, hsent, hanswer, hok, if_true]

theorem collectBits_of_not_ok (hnot : responseStatus r ≠ 0) : (collectBits (fuel + 1) s).1 = [] := by
  simp only [collectBits, hsent, hanswer, hnot, if_false]

end

/-- The bits that the host collects from Bit Position `j` on: those of every sample that is left. -/
theorem collectBits_placeWalk (fuel : Nat) {s : State} {j : Nat} (hj : j ≤ s.sampleCount)
    (hfuel : s.sampleCount < j + fuel) :
    (collectBits fuel (s.placeWalk j)).1 = (List.range' j (s.sampleCount - j)).map fun a => lsb (s.mem.read a) := by
  induction fuel generalizing s j with
  | zero => omega
  | succ fuel ih =>
    have hsent := drive_send_seqGet_placeWalk s j
    rw [Nat.min_eq_left hj] at hsent
    rcases Nat.lt_or_eq_of_le hj with hlt | rfl
    · rw [bitCommandEvents_seqGet _ hlt, Nat.min_eq_left hlt] at hsent
      have hrest := ih (s := (s.emit (.command (encode .seqGet))).record s.mem
        [.read j (s.mem.read j), .respond (responseWord .ok (bitData (lsb (s.mem.read j))))]) (j := j + 1) hlt
        (show s.sampleCount < j + 1 + fuel by omega)
      have hbit : ∀ b, (responseWord .ok (bitData b)).getLsbD 0 = b := by decide
      have hleft : s.sampleCount - j = s.sampleCount - (j + 1) + 1 := by omega
      rw [collectBits_of_ok hsent (lastResponse_of_trace (List.append_cons ..)) (responseStatus_responseWord .ok _), hbit,
        hrest, hleft]
      rfl
    · rw [bitCommandEvents_of_le _ _ le_rfl] at hsent
      rw [collectBits_of_not_ok hsent (lastResponse_of_trace rfl) (by decide), Nat.sub_self]
      rfl

/-! ### The three functions -/

/-- Rule R80: `SEQ.START` places the walk at Bit Position 0. -/
theorem exec_seqStart_placeWalk (s : State) :
    exec .seqStart s = .next ((s.record s.mem [.respond 0]).placeWalk 0) := by
  rw [exec_seqStart, restartWalk_eq_placeWalk]
  rfl

/-- After `SEQ.START` the host collects the bit of every sample, in order. -/
theorem collectBits_seqStart (s : State) :
    (collectBits (s.sampleCount + 1) (drive [send .seqStart] s)).1 =
      (List.range s.sampleCount).map fun a => lsb (s.mem.read a) := by
  have hstart : drive [send .seqStart] s =
      ((s.emit (.command (encode .seqStart))).record s.mem [.respond 0]).placeWalk 0 :=
    drive_send (exec_seqStart_placeWalk _) []
  have hrun := collectBits_placeWalk (s.sampleCount + 1)
    (s := (s.emit (.command (encode .seqStart))).record s.mem [.respond 0]) (Nat.zero_le _)
    (show s.sampleCount < 0 + (s.sampleCount + 1) by omega)
  rw [hstart, hrun, List.range_eq_range']
  rfl

/-- Rule R72: the whole sequence of a frame that has just been placed. -/
theorem collectBits_of_frame {frame : Frame} {s : State} (hlength : frame.length = s.sampleCount) :
    (collectBits (frame.length + 1) (drive [.loadFrame frame, send .seqStart] s)).1 = frame.map lsb := by
  have hcollect := collectBits_seqStart (hostLoad frame s)
  have hcount : (hostLoad frame s).sampleCount = frame.length := hlength.symm
  rw [hcount] at hcollect
  rw [drive_loadFrame, hcollect]
  conv_rhs => rw [← read_load_range s.mem frame, List.map_map]
  rfl

/-- Settles O50: what is taken back carries the unit, what is extracted is the frame's own unit, and the sequence that is
collected is that of the samples placed. -/
theorem functionsOfTheSourceRunOnTheBlock : Obligations.FunctionsOfTheSourceRunOnTheBlock := by
  intro frame v s hlength
  refine ⟨fun hle => ⟨⟨frame.withUnit v, _, embedByte_eq hle frame v, List.length_mapIdx, fun k x hx => ?_⟩, ?_⟩,
    collectBits_of_frame hlength⟩
  · rw [Frame.withUnit, List.getElem?_mapIdx, hx, ← setLsb_eq_or]
    rfl
  · have hextract := extractByte_of_le hle frame
    rw [extracted_load _ (hle.trans_eq hlength.symm)] at hextract
    exact ⟨frame.unit, _, hextract, fun k hk => frame.unitBit_unit hk⟩

end Sys2Proof.Machine
end
